-- ==== Sys2Proof/Word.lean ====
section
/-! DEFINITION. The words of the Chip8Demo core (spec/00_scope.md R8, spec/10_state.md). -/

namespace Sys2Proof

/-- An instruction word, `w[15:0]` (R80). -/
abbrev Word := BitVec 16

/-- A register value, a timer or a memory byte (R21, R29, R60). -/
abbrev Byte := BitVec 8

/-- A memory address, the program counter or the index register (R24, R25, R60). -/
abbrev Addr := BitVec 12

/-- A 4-bit field: a register index, a key code or a sprite height (R83). -/
abbrev Nibble := BitVec 4

end Sys2Proof
end

