-- ==== Sys2Proof/Syntax.lean ====
section
/-! DEFINITION. The 34 instructions of spec/opcode_table.json and spec/30_encoding.md R94, in the order of the table.
Operands are the fields of R81 that the format of R82 uses. `h` is the nibble the dispatch does not compare (R86, R90):
it is no operand, no meaning reads it, and it is kept so that decoding drops no bit of the word. -/

namespace Sys2Proof

inductive Instr where
  | cls       (h : Nibble)
  | ret       (h : Nibble)
  | jp        (nnn : Addr)
  | call      (nnn : Addr)
  | seVxKk    (x : Nibble) (kk : Byte)
  | sneVxKk   (x : Nibble) (kk : Byte)
  | seVxVy    (x y h : Nibble)
  | ldVxKk    (x : Nibble) (kk : Byte)
  | addVxKk   (x : Nibble) (kk : Byte)
  | ldVxVy    (x y : Nibble)
  | orVxVy    (x y : Nibble)
  | andVxVy   (x y : Nibble)
  | xorVxVy   (x y : Nibble)
  | addVxVy   (x y : Nibble)
  | subVxVy   (x y : Nibble)
  | shrVxVy   (x y : Nibble)
  | subnVxVy  (x y : Nibble)
  | shlVxVy   (x y : Nibble)
  | sneVxVy   (x y h : Nibble)
  | ldI       (nnn : Addr)
  | jpV0      (nnn : Addr)
  | rndVxKk   (x : Nibble) (kk : Byte)
  | drw       (x y n : Nibble)
  | skp       (x : Nibble)
  | sknp      (x : Nibble)
  | ldVxDt    (x : Nibble)
  | ldVxK     (x : Nibble)
  | ldDtVx    (x : Nibble)
  | ldStVx    (x : Nibble)
  | addIVx    (x : Nibble)
  | ldFVx     (x : Nibble)
  | ldBVx     (x : Nibble)
  | ldMemVx   (x : Nibble)
  | ldVxMem   (x : Nibble)
deriving DecidableEq, Repr

end Sys2Proof
end

