-- ==== Sys2Proof/WellFormed.lean ====
section
/-! DEFINITION. Which terms are well formed. The operand types already bound every field (R81, R83), and no operand
combination is reserved (R95, R348). What is left is the assembler's rule for the bits that are not compared (R96), and
the launch's rule for the size of a ROM (R371). -/

namespace Sys2Proof

/-- `i` is the form an assembler writes: "An assembler encodes the aliasing bits `h` of rows 1, 2, 7 and 19 as 0" (R96).
The core runs the other forms just the same (R86, R90). -/
def Instr.wellFormed : Instr → Bool
  | .cls h | .ret h | .seVxVy _ _ h | .sneVxVy _ _ h => h == 0
  | .jp _ | .call _ | .ldI _ | .jpV0 _ => true
  | .seVxKk _ _ | .sneVxKk _ _ | .ldVxKk _ _ | .addVxKk _ _ | .rndVxKk _ _ => true
  | .ldVxVy _ _ | .orVxVy _ _ | .andVxVy _ _ | .xorVxVy _ _ | .addVxVy _ _ | .subVxVy _ _ => true
  | .shrVxVy _ _ | .subnVxVy _ _ | .shlVxVy _ _ | .drw _ _ _ => true
  | .skp _ | .sknp _ | .ldVxDt _ | .ldVxK _ | .ldDtVx _ | .ldStVx _ | .addIVx _ | .ldFVx _ | .ldBVx _ => true
  | .ldMemVx _ | .ldVxMem _ => true

/-- `PROG_MAX` (R6): the largest ROM, 0xE00 bytes. -/
def romMax : Nat := 0xE00

/-- The size check of R371: a ROM of at most 0xE00 bytes is legal, the empty one included. -/
def romWellFormed (rom : List Byte) : Bool := rom.length ≤ romMax

end Sys2Proof
end

