-- ==== Sys2Proof/Decode.lean ====
section
/-! DEFINITION. The decoder, the two-level dispatch mux, the opcode map and the encoder (spec/30_encoding.md).
Decoding is total on any word and on any list of bytes, and rejects by name. -/

namespace Sys2Proof

/-! ### The decoder: field extraction (R81) -/

/-- The decoder's outputs. -/
structure Fields where
  cls : Nibble
  x   : Nibble
  y   : Nibble
  n   : Nibble
  kk  : Byte
  nnn : Addr
deriving DecidableEq, Repr

/-- The decoder of R81: total, all six fields for every word. -/
def fieldsOf (w : Word) : Fields where
  cls := w.extractLsb' 12 4
  x   := w.extractLsb' 8 4
  y   := w.extractLsb' 4 4
  n   := w.extractLsb' 0 4
  kk  := w.extractLsb' 0 8
  nnn := w.extractLsb' 0 12

/-! ### The dispatch mux (R84 to R93) -/

/-- The operation tag `op` of R92, one constructor per tag. -/
inductive Op where
  | cls | ret | jp | call | seVxKk | sneVxKk | seVxVy | ldVxKk | addVxKk | ldVxVy | orVxVy | andVxVy
  | xorVxVy | addVxVy | subVxVy | shrVxVy | subnVxVy | shlVxVy | sneVxVy | ldI | jpV0 | rndVxKk | drw | skp
  | sknp | ldVxDt | ldVxK | ldDtVx | ldStVx | addIVx | ldFVx | ldBVx | ldMemVx | ldVxMem
deriving DecidableEq, Repr

/-- The 6-bit number of a tag (R92, D37: the numbers are labels). -/
def Op.tag : Op → BitVec 6
  | .cls => 0 | .ret => 1 | .jp => 2 | .call => 3 | .seVxKk => 4 | .sneVxKk => 5 | .seVxVy => 6 | .ldVxKk => 7
  | .addVxKk => 8 | .ldVxVy => 9 | .orVxVy => 10 | .andVxVy => 11 | .xorVxVy => 12 | .addVxVy => 13 | .subVxVy => 14
  | .shrVxVy => 15 | .subnVxVy => 16 | .shlVxVy => 17 | .sneVxVy => 18 | .ldI => 19 | .jpV0 => 20 | .rndVxKk => 21
  | .drw => 22 | .skp => 23 | .sknp => 24 | .ldVxDt => 25 | .ldVxK => 26 | .ldDtVx => 27 | .ldStVx => 28
  | .addIVx => 29 | .ldFVx => 30 | .ldBVx => 31 | .ldMemVx => 32 | .ldVxMem => 33

/-- Class 0 (R86), keyed by `w & 0xF0FF`. -/
def class0Table : List (Word × Op) := [(0x00E0, .cls), (0x00EE, .ret)]

/-- Class 8 (R87), keyed by `w & 0xF00F`. -/
def class8Table : List (Word × Op) :=
  [(0x8000, .ldVxVy), (0x8001, .orVxVy), (0x8002, .andVxVy), (0x8003, .xorVxVy), (0x8004, .addVxVy),
   (0x8005, .subVxVy), (0x8006, .shrVxVy), (0x8007, .subnVxVy), (0x800E, .shlVxVy)]

/-- Class E (R88), keyed by `w & 0xF0FF`. -/
def classETable : List (Word × Op) := [(0xE09E, .skp), (0xE0A1, .sknp)]

/-- Class F (R89), keyed by `w & 0xF0FF`. -/
def classFTable : List (Word × Op) :=
  [(0xF007, .ldVxDt), (0xF00A, .ldVxK), (0xF015, .ldDtVx), (0xF018, .ldStVx), (0xF01E, .addIVx),
   (0xF029, .ldFVx), (0xF033, .ldBVx), (0xF055, .ldMemVx), (0xF065, .ldVxMem)]

/-- The equality match of a masked key against a fixed list of constants (R93). -/
def lookupKey (key : Word) : List (Word × Op) → Option Op
  | [] => none
  | (k, op) :: rest => if key = k then some op else lookupKey key rest

/-- A primary slot (R84): one instruction (R90), or a secondary lookup under a mask (R85). -/
inductive Slot where
  | single    (op : Op)
  | secondary (mask : Word) (table : List (Word × Op))
deriving DecidableEq, Repr

/-- The 16-way primary selection on the class (R84, R90). -/
def primarySlot (cls : Nibble) : Slot :=
  match cls.toNat with
  | 0x0 => .secondary 0xF0FF class0Table
  | 0x1 => .single .jp
  | 0x2 => .single .call
  | 0x3 => .single .seVxKk
  | 0x4 => .single .sneVxKk
  | 0x5 => .single .seVxVy
  | 0x6 => .single .ldVxKk
  | 0x7 => .single .addVxKk
  | 0x8 => .secondary 0xF00F class8Table
  | 0x9 => .single .sneVxVy
  | 0xA => .single .ldI
  | 0xB => .single .jpV0
  | 0xC => .single .rndVxKk
  | 0xD => .single .drw
  | 0xE => .secondary 0xF0FF classETable
  | _   => .secondary 0xF0FF classFTable

/-- The dispatch mux: `none` is `decode_fault = 1` (R91). -/
def dispatch (w : Word) : Option Op :=
  match primarySlot (fieldsOf w).cls with
  | .single op => some op
  | .secondary mask table => lookupKey (w &&& mask) table

/-- The instruction of an operation with the decoder's fields (R82): each takes the fields its format names. -/
def assemble (f : Fields) : Op → Instr
  | .cls => .cls f.x
  | .ret => .ret f.x
  | .jp => .jp f.nnn
  | .call => .call f.nnn
  | .seVxKk => .seVxKk f.x f.kk
  | .sneVxKk => .sneVxKk f.x f.kk
  | .seVxVy => .seVxVy f.x f.y f.n
  | .ldVxKk => .ldVxKk f.x f.kk
  | .addVxKk => .addVxKk f.x f.kk
  | .ldVxVy => .ldVxVy f.x f.y
  | .orVxVy => .orVxVy f.x f.y
  | .andVxVy => .andVxVy f.x f.y
  | .xorVxVy => .xorVxVy f.x f.y
  | .addVxVy => .addVxVy f.x f.y
  | .subVxVy => .subVxVy f.x f.y
  | .shrVxVy => .shrVxVy f.x f.y
  | .subnVxVy => .subnVxVy f.x f.y
  | .shlVxVy => .shlVxVy f.x f.y
  | .sneVxVy => .sneVxVy f.x f.y f.n
  | .ldI => .ldI f.nnn
  | .jpV0 => .jpV0 f.nnn
  | .rndVxKk => .rndVxKk f.x f.kk
  | .drw => .drw f.x f.y f.n
  | .skp => .skp f.x
  | .sknp => .sknp f.x
  | .ldVxDt => .ldVxDt f.x
  | .ldVxK => .ldVxK f.x
  | .ldDtVx => .ldDtVx f.x
  | .ldStVx => .ldStVx f.x
  | .addIVx => .addIVx f.x
  | .ldFVx => .ldFVx f.x
  | .ldBVx => .ldBVx f.x
  | .ldMemVx => .ldMemVx f.x
  | .ldVxMem => .ldVxMem f.x

/-- The instruction of a word; `none` where the dispatch misses (R91, R95). -/
def decodeWord (w : Word) : Option Instr := (dispatch w).map (assemble (fieldsOf w))

/-! ### Bytes (R64, R80) -/

/-- Big-endian: the byte at the lower address is bits 15-8 (R64). -/
def wordOf (hi lo : Byte) : Word := hi ++ lo

/-- Bits 15-8 of a word, the byte at the lower address. -/
def hiByte (w : Word) : Byte := w.extractLsb' 8 8

/-- Bits 7-0 of a word, the byte at the higher address. -/
def loByte (w : Word) : Byte := w.extractLsb' 0 8

/-- Why a list of bytes has no first instruction. -/
inductive DecodeError where
  /-- Fewer than the two bytes of a word. -/
  | truncated
  /-- The dispatch misses: the core's DecodeFault (R91). -/
  | decodeFault (w : Word)
deriving DecidableEq, Repr

/-- The first instruction of a list of bytes, and the bytes after it. Total, and rejecting by name. -/
def decodeBytes : List Byte → Except DecodeError (Instr × List Byte)
  | hi :: lo :: rest =>
    match decodeWord (wordOf hi lo) with
    | some i => .ok (i, rest)
    | none => .error (.decodeFault (wordOf hi lo))
  | [_] => .error .truncated
  | [] => .error .truncated

/-- The decoder on a row of spec/opcode_table.json: the word's bits are numbered as there, bit 0 its least significant. -/
def decodeTableWord (nbits w : Nat) : Option Instr :=
  let word : Word := BitVec.ofNat 16 (w % 2 ^ nbits)
  match decodeBytes [hiByte word, loByte word] with
  | .ok (i, _) => some i
  | .error _ => none

/-! ### The opcode map (R94) -/

/-- One row of the map: `w & mask = pattern`. -/
structure OpcodeRow where
  op      : Op
  pattern : Word
  mask    : Word
deriving DecidableEq, Repr

/-- Rows 1 to 18 of the map of R94. -/
def opcodeMapLow : List OpcodeRow :=
  [⟨.cls, 0x00E0, 0xF0FF⟩, ⟨.ret, 0x00EE, 0xF0FF⟩, ⟨.jp, 0x1000, 0xF000⟩, ⟨.call, 0x2000, 0xF000⟩,
   ⟨.seVxKk, 0x3000, 0xF000⟩, ⟨.sneVxKk, 0x4000, 0xF000⟩, ⟨.seVxVy, 0x5000, 0xF000⟩, ⟨.ldVxKk, 0x6000, 0xF000⟩,
   ⟨.addVxKk, 0x7000, 0xF000⟩, ⟨.ldVxVy, 0x8000, 0xF00F⟩, ⟨.orVxVy, 0x8001, 0xF00F⟩, ⟨.andVxVy, 0x8002, 0xF00F⟩,
   ⟨.xorVxVy, 0x8003, 0xF00F⟩, ⟨.addVxVy, 0x8004, 0xF00F⟩, ⟨.subVxVy, 0x8005, 0xF00F⟩, ⟨.shrVxVy, 0x8006, 0xF00F⟩,
   ⟨.subnVxVy, 0x8007, 0xF00F⟩, ⟨.shlVxVy, 0x800E, 0xF00F⟩]

/-- Rows 19 to 34 of the map of R94. -/
def opcodeMapHigh : List OpcodeRow :=
  [⟨.sneVxVy, 0x9000, 0xF000⟩, ⟨.ldI, 0xA000, 0xF000⟩, ⟨.jpV0, 0xB000, 0xF000⟩, ⟨.rndVxKk, 0xC000, 0xF000⟩,
   ⟨.drw, 0xD000, 0xF000⟩, ⟨.skp, 0xE09E, 0xF0FF⟩, ⟨.sknp, 0xE0A1, 0xF0FF⟩, ⟨.ldVxDt, 0xF007, 0xF0FF⟩,
   ⟨.ldVxK, 0xF00A, 0xF0FF⟩, ⟨.ldDtVx, 0xF015, 0xF0FF⟩, ⟨.ldStVx, 0xF018, 0xF0FF⟩, ⟨.addIVx, 0xF01E, 0xF0FF⟩,
   ⟨.ldFVx, 0xF029, 0xF0FF⟩, ⟨.ldBVx, 0xF033, 0xF0FF⟩, ⟨.ldMemVx, 0xF055, 0xF0FF⟩, ⟨.ldVxMem, 0xF065, 0xF0FF⟩]

/-- The complete opcode map of R94, in its order. -/
def opcodeMap : List OpcodeRow := opcodeMapLow ++ opcodeMapHigh

/-- The operation tag of an instruction. -/
def Instr.op : Instr → Op
  | .cls _ => .cls
  | .ret _ => .ret
  | .jp _ => .jp
  | .call _ => .call
  | .seVxKk _ _ => .seVxKk
  | .sneVxKk _ _ => .sneVxKk
  | .seVxVy _ _ _ => .seVxVy
  | .ldVxKk _ _ => .ldVxKk
  | .addVxKk _ _ => .addVxKk
  | .ldVxVy _ _ => .ldVxVy
  | .orVxVy _ _ => .orVxVy
  | .andVxVy _ _ => .andVxVy
  | .xorVxVy _ _ => .xorVxVy
  | .addVxVy _ _ => .addVxVy
  | .subVxVy _ _ => .subVxVy
  | .shrVxVy _ _ => .shrVxVy
  | .subnVxVy _ _ => .subnVxVy
  | .shlVxVy _ _ => .shlVxVy
  | .sneVxVy _ _ _ => .sneVxVy
  | .ldI _ => .ldI
  | .jpV0 _ => .jpV0
  | .rndVxKk _ _ => .rndVxKk
  | .drw _ _ _ => .drw
  | .skp _ => .skp
  | .sknp _ => .sknp
  | .ldVxDt _ => .ldVxDt
  | .ldVxK _ => .ldVxK
  | .ldDtVx _ => .ldDtVx
  | .ldStVx _ => .ldStVx
  | .addIVx _ => .addIVx
  | .ldFVx _ => .ldFVx
  | .ldBVx _ => .ldBVx
  | .ldMemVx _ => .ldMemVx
  | .ldVxMem _ => .ldVxMem

/-! ### The encoder (R82, R94): the layouts of the formats, written out -/

/-- Format NNN: class and a 12-bit constant. -/
def formatNNN (cls : Nibble) (nnn : Addr) : Word := cls ++ nnn

/-- Formats XKK, X and N: class, a nibble in bits 11-8 and a byte in bits 7-0. -/
def formatXKK (cls x : Nibble) (kk : Byte) : Word := cls ++ x ++ kk

/-- Formats XY and XYN: class and three nibbles. -/
def formatXYN (cls x y n : Nibble) : Word := cls ++ x ++ y ++ n

/-- The word of an instruction. -/
def encode : Instr → Word
  | .cls h => formatXKK 0x0 h 0xE0
  | .ret h => formatXKK 0x0 h 0xEE
  | .jp nnn => formatNNN 0x1 nnn
  | .call nnn => formatNNN 0x2 nnn
  | .seVxKk x kk => formatXKK 0x3 x kk
  | .sneVxKk x kk => formatXKK 0x4 x kk
  | .seVxVy x y h => formatXYN 0x5 x y h
  | .ldVxKk x kk => formatXKK 0x6 x kk
  | .addVxKk x kk => formatXKK 0x7 x kk
  | .ldVxVy x y => formatXYN 0x8 x y 0x0
  | .orVxVy x y => formatXYN 0x8 x y 0x1
  | .andVxVy x y => formatXYN 0x8 x y 0x2
  | .xorVxVy x y => formatXYN 0x8 x y 0x3
  | .addVxVy x y => formatXYN 0x8 x y 0x4
  | .subVxVy x y => formatXYN 0x8 x y 0x5
  | .shrVxVy x y => formatXYN 0x8 x y 0x6
  | .subnVxVy x y => formatXYN 0x8 x y 0x7
  | .shlVxVy x y => formatXYN 0x8 x y 0xE
  | .sneVxVy x y h => formatXYN 0x9 x y h
  | .ldI nnn => formatNNN 0xA nnn
  | .jpV0 nnn => formatNNN 0xB nnn
  | .rndVxKk x kk => formatXKK 0xC x kk
  | .drw x y n => formatXYN 0xD x y n
  | .skp x => formatXKK 0xE x 0x9E
  | .sknp x => formatXKK 0xE x 0xA1
  | .ldVxDt x => formatXKK 0xF x 0x07
  | .ldVxK x => formatXKK 0xF x 0x0A
  | .ldDtVx x => formatXKK 0xF x 0x15
  | .ldStVx x => formatXKK 0xF x 0x18
  | .addIVx x => formatXKK 0xF x 0x1E
  | .ldFVx x => formatXKK 0xF x 0x29
  | .ldBVx x => formatXKK 0xF x 0x33
  | .ldMemVx x => formatXKK 0xF x 0x55
  | .ldVxMem x => formatXKK 0xF x 0x65

/-- The bytes of an instruction as memory holds them, lowest address first (R64). -/
def encodeBytes (i : Instr) : List Byte := [hiByte (encode i), loByte (encode i)]

end Sys2Proof
end

