-- ==== Sys2Proof/Config.lean ====
section
/-! DEFINITION. What an implementation fixes (the parameters of spec/00_scope.md R6 and the font table of
spec/20_memory.md R68), and the free values of the core's inputs. The default values are in
`Sys2Proof.Machine.Defaults`. -/

namespace Sys2Proof

/-- `PC_OVERFLOW` (R6, R25, R336): what a program-counter value past 0xFFF does. -/
inductive PcOverflow where
  | wrap
  | fault
deriving DecidableEq, Repr

/-- `UNWRITTEN` (R6, R39): what a read of a cell that nothing has written does. -/
inductive Unwritten where
  | fault
  | zero
deriving DecidableEq, Repr

/-- The implementation parameters (R6), with the table `FONT` (R68). -/
structure Config where
  /-- `STACK_DEPTH`: call-stack capacity in entries. -/
  stackDepth    : Nat
  /-- `SUB_EQUAL_VF`: the flag of SUB and SUBN for equal operands. -/
  subEqualVf    : Bool
  /-- `SHIFT_SRC_VY`: SHR and SHL shift Vy instead of Vx. -/
  shiftSrcVy    : Bool
  /-- `LOGIC_RESETS_VF`: OR, AND and XOR clear VF. -/
  logicResetsVf : Bool
  /-- `LDST_INC_I`: a register block store or load advances I by x+1. -/
  ldstIncI      : Bool
  /-- `PC_OVERFLOW`. -/
  pcOverflow    : PcOverflow
  /-- `FONT_DIGIT_MASK`: LD F,Vx uses only the low nibble of Vx. -/
  fontDigitMask : Bool
  /-- `UNWRITTEN`. -/
  unwritten     : Unwritten
  /-- `FONT`: the 80 bytes at 0x000..0x04F. -/
  font          : Vector Byte 80
deriving DecidableEq, Repr

/-- FREE VALUE. The key levels at event number `n` when no event is scheduled (K1.8 "any value"; log 4). -/
opaque Config.freeKeys : Nat → BitVec 16

/-- FREE VALUE. The random byte at event number `n` when no event is scheduled (K1.7 "any value", R205; logs 4, 5). -/
opaque Config.freeRnd : Nat → Byte

/-- FREE VALUE. Whether the Display Adapter clears DIRTY at event number `n` when no event is scheduled (R307; log 4). -/
opaque Config.freeDirtyClr : Nat → Bool

end Sys2Proof
end

