-- ==== Sys2Proof/Machine/Defaults.lean ====
section
/-! DEFINITION. The values the spec gives the parameters, the font table and the reset state
(spec/00_scope.md R6, spec/20_memory.md R68, spec/10_state.md R40). -/

namespace Sys2Proof.Machine

/-- The font table of R68, glyphs 0 to 7. -/
def fontLow : Vector Byte 40 :=
  #v[0xF0, 0x90, 0x90, 0x90, 0xF0, 0x20, 0x60, 0x20, 0x20, 0x70,
     0xF0, 0x10, 0xF0, 0x80, 0xF0, 0xF0, 0x10, 0xF0, 0x10, 0xF0,
     0x90, 0x90, 0xF0, 0x10, 0x10, 0xF0, 0x80, 0xF0, 0x10, 0xF0,
     0xF0, 0x80, 0xF0, 0x90, 0xF0, 0xF0, 0x10, 0x20, 0x40, 0x40]

/-- The font table of R68, glyphs 8 to F. -/
def fontHigh : Vector Byte 40 :=
  #v[0xF0, 0x90, 0xF0, 0x90, 0xF0, 0xF0, 0x90, 0xF0, 0x10, 0xF0,
     0xF0, 0x90, 0xF0, 0x90, 0x90, 0xE0, 0x90, 0xE0, 0x90, 0xE0,
     0xF0, 0x80, 0x80, 0x80, 0xF0, 0xE0, 0x90, 0x90, 0x90, 0xE0,
     0xF0, 0x80, 0xF0, 0x80, 0xF0, 0xF0, 0x80, 0xF0, 0x80, 0x80]

/-- The default of `FONT`: the table of R68. -/
def defaultFont : Vector Byte 80 := fontLow ++ fontHigh

/-- The default values of the parameters (R6). -/
def defaultConfig : Config where
  stackDepth    := 16
  subEqualVf    := true
  shiftSrcVy    := false
  logicResetsVf := false
  ldstIncI      := true
  pcOverflow    := .wrap
  fontDigitMask := false
  unwritten     := .fault
  font          := defaultFont

/-- `PROG_BASE` (R6): the ROM load address and the entry point. -/
def progBase : Addr := 0x200

/-- The value of each V register at reset. DESIGN CHOICE (log 2): the spec gives none. UNSAFE. -/
def resetV : Byte := 0

/-- The value of I at reset. DESIGN CHOICE (log 2): the spec gives none. UNSAFE. -/
def resetI : Addr := 0

/-- The contents of a stack entry at reset. DESIGN CHOICE (log 7): "unconstrained" (R40). UNSAFE, never read below SP. -/
def resetStackEntry : Addr := 0

end Sys2Proof.Machine
end

