-- ==== Sys2Proof/Machine/State.lean ====
section
/-! DEFINITION. The state of the core (spec/10_state.md), its inputs and outputs (spec/40_cycle_driver.md R127), the
reasons a step can stop, and the state after reset (R40). Everything is plain data. -/

namespace Sys2Proof.Machine

/-- `MEM` (R60): the bytes that differ from the launch contents, by address, strictly rising. An unlisted address reads as
the launch contents (R40, R67): the font table at 0x000..0x04F, and no value anywhere else (unwritten, R39). -/
abbrev Memory := List Host.Cell

/-- `FB` (R31): 32 rows, top to bottom; bit `c` of a row is the cell of column `c`. -/
abbrev Framebuffer := Vector (BitVec 64) 32

/-- `CAUSE` (R35). -/
inductive Cause where
  | none
  | decodeFault
  | stackUnderflow
  | stackOverflow
  | outOfBoundsAccess
  | romTooLarge
  | break
deriving DecidableEq, Repr

/-- One external event (R126, R127). Each step of the machine takes one. -/
inductive Event where
  /-- A pulse: the key levels, the random byte, the break request, and whether the Display Adapter clears DIRTY after its
  render (R126). -/
  | pulse (keys : BitVec 16) (rnd : Byte) (brk dirtyClr : Bool)
  /-- The debugger's `resume` (R345). -/
  | resume
  /-- The debugger's `step`, with the key levels and the random byte present at the command (R346). -/
  | singleStep (keys : BitVec 16) (rnd : Byte)
  /-- The debugger's `enable-trace` (R37). -/
  | enableTrace
  /-- The debugger's `memdump`: it only reads (R71, R352). -/
  | memdump
  /-- The debugger's `print-registers`: it only reads (R352). -/
  | printRegisters
deriving DecidableEq, Repr

/-- A cell that carries a written bit (R39). -/
inductive WrittenCell where
  | v   (x : Nibble)
  | i
  | mem (a : Addr)
deriving DecidableEq, Repr

/-- What ends a run with no successor state. The core's own faults (R330) are not here: they are state changes. -/
inductive Fault where
  /-- R39's `UnwrittenRead`: under `UNWRITTEN = fault` the fetch or an instruction read a cell that nothing has written.
  Raised by `readV`, `readI` and `readMem`. Safe: the spec itself says that the tick has no successor state. -/
  | unwrittenRead (cell : WrittenCell)
deriving DecidableEq, Repr

/-- Why the model gives a word no meaning. -/
inductive Refusal where
  /-- Raised by an arm of `exec` for an instruction without a meaning; no arm raises it now. Safe. -/
  | notModelled (mnemonic : String)
deriving DecidableEq, Repr

/-- The state of the core. -/
structure State where
  /-- V[0..15] (R21). -/
  v           : Vector Byte 16
  /-- The written bits of V: bit `x` is that of V[x] (R39). -/
  vWritten    : BitVec 16
  /-- I (R24). -/
  i           : Addr
  /-- The written bit of I (R39). -/
  iWritten    : Bool
  /-- pc (R25). -/
  pc          : Addr
  /-- STACK[0..STACK_DEPTH-1] (R27). -/
  stack       : List Addr
  /-- SP (R28). -/
  sp          : Nat
  /-- DT (R29). -/
  dt          : Byte
  /-- ST (R30). -/
  st          : Byte
  /-- MEM with its written bits (R60, R39). -/
  mem         : Memory
  /-- FB (R31). -/
  fb          : Framebuffer
  /-- DIRTY (R32). -/
  dirty       : Bool
  /-- HALT (R34). -/
  halt        : Bool
  /-- SUSP (R34). -/
  susp        : Bool
  /-- WAITK (R34). -/
  waitK       : Bool
  /-- WAIT_X (R34). -/
  waitX       : Nibble
  /-- CAUSE (R35). -/
  cause       : Cause
  /-- FAULT_OPCODE (R36). -/
  faultOpcode : Word
  /-- FAULT_PC (R36). -/
  faultPc     : Addr
  /-- TRACE (R37). -/
  trace       : Bool
  /-- KEY: the snapshot of the key levels; bit `k` is key `k` (R33, R278). -/
  key         : BitVec 16
  /-- The random byte on the rnd input for this tick (R121, R205). -/
  rnd         : Byte
  /-- The output `play_tone` of the last event (R272). -/
  playTone    : Bool
  /-- The output `stop_tone` of the last event (R272). -/
  stopTone    : Bool
  /-- The trace port of the last event: address and word, when valid (R129). -/
  traceOut    : Option (Addr × Word)
  /-- DIRTY as the render of the last event read it, before `dirty_clr` (R126 step 4, R307); `none` where the last event had
  no render. The framebuffer that render read is `fb`: nothing after the render of an event changes it. -/
  renderDirty : Option Bool
  /-- `w` of R121: the word being executed. -/
  curWord     : Word
  /-- `a` of R121: the address of that word. -/
  curPc       : Addr
  /-- The parameters (R6). No step changes them. -/
  cfg         : Config
  /-- The model's own: the external events known in advance, oldest first (log 4). -/
  events      : List Event
  /-- The model's own: the number of events taken so far, the argument of the free values (log 4). -/
  eventNo     : Nat
deriving DecidableEq, Repr

/-- The state after reset (R40, R370), with the default parameters and no ROM loaded. -/
def State.reset : State where
  v           := Vector.replicate 16 resetV
  vWritten    := 0xFFFF
  i           := resetI
  iWritten    := true
  pc          := progBase
  stack       := List.replicate defaultConfig.stackDepth resetStackEntry
  sp          := 0
  dt          := 0
  st          := 0
  mem         := []
  fb          := Vector.replicate 32 0
  dirty       := false
  halt        := false
  susp        := false
  waitK       := false
  waitX       := 0
  cause       := .none
  faultOpcode := 0
  faultPc     := 0
  trace       := false
  key         := 0
  rnd         := 0
  playTone    := false
  stopTone    := false
  traceOut    := none
  renderDirty := none
  curWord     := 0
  curPc       := 0
  cfg         := defaultConfig
  events      := []
  eventNo     := 0

end Sys2Proof.Machine
end

