-- ==== Sys2Proof/Machine/Ops.lean ====
section
/-! DEFINITION. The named operations over the state: memory, registers, reads that can stop, the stack unit, the program
counter, taking a fault and returning from the debugger. -/

namespace Sys2Proof.Machine

/-- What a step answers. -/
abbrev Result := Host.Outcome State Fault Refusal

/-- Use the value of a read, or stop as the read stopped (R39). -/
def readThen {α : Type} (r : Except Fault α) (k : α → Result) : Result :=
  match r with
  | .ok a => k a
  | .error f => .fault f

/-- The same inside a computation that can stop. -/
def readMap {α β : Type} (r : Except Fault α) (k : α → β) : Except Fault β :=
  match r with
  | .ok a => .ok (k a)
  | .error f => .error f

/-- `for k in 0 .. n-1`, ascending (R245, R246, R303), stopping where the body stops. -/
def forUpTo {σ : Type} : Nat → (Nat → σ → Except Fault σ) → σ → Except Fault σ
  | 0, _, s => .ok s
  | n + 1, body, s =>
    match forUpTo n body s with
    | .ok t => body n t
    | .error f => .error f

/-- `for k in 0 .. n-1`, ascending, with a body that cannot stop. -/
def repeatUpTo {σ : Type} : Nat → (Nat → σ → σ) → σ → σ
  | 0, _, s => s
  | n + 1, body, s => body n (repeatUpTo n body s)

/-! ### Memory (spec/20_memory.md) -/

/-- The listed byte at an address. -/
def Memory.listed (a : Nat) : Memory → Option Byte
  | [] => none
  | c :: m => if c.1 = a then some c.2 else Memory.listed a m

/-- The memory without the entry of an address. -/
def Memory.unlist (a : Nat) : Memory → Memory
  | [] => []
  | c :: m => if c.1 = a then Memory.unlist a m else c :: Memory.unlist a m

/-- The memory with an entry for an address, in rising order, in place of the entry it has. -/
def Memory.put (a : Nat) (b : Byte) : Memory → Memory
  | [] => [(a, b)]
  | c :: m => if c.1 < a then c :: Memory.put a b m else if c.1 = a then (a, b) :: m else (a, b) :: c :: m

/-- What an unlisted address reads as: the launch contents (R40, R67). `none` is an unwritten byte (R39). -/
def Memory.launchByte (font : Vector Byte 80) (a : Nat) : Option Byte := font[a]?

/-- The byte of an address; `none` where nothing has written it since launch. -/
def Memory.byte (font : Vector Byte 80) (m : Memory) (a : Addr) : Option Byte :=
  match Memory.listed a.toNat m with
  | some b => some b
  | none => Memory.launchByte font a.toNat

/-- The memory after a byte is written: the entry of the launch contents is not listed. -/
def Memory.write (font : Vector Byte 80) (m : Memory) (a : Addr) (b : Byte) : Memory :=
  if Memory.launchByte font a.toNat = some b then Memory.unlist a.toNat m
  else Memory.put a.toNat b m

/-- The canonical form: strictly rising addresses below 4096, and no entry equal to the launch contents. -/
abbrev Memory.wf (font : Vector Byte 80) (m : Memory) : Prop :=
  m.Pairwise (fun c d => c.1 < d.1) ∧ ∀ c ∈ m, c.1 < 4096 ∧ Memory.launchByte font c.1 ≠ some c.2

/-- The byte at an address of this state, `none` where unwritten. -/
def byteAt (s : State) (a : Addr) : Option Byte := Memory.byte s.cfg.font s.mem a

/-- `MemRead(a, 1)` (R62). -/
def readMem (s : State) (a : Addr) : Except Fault Byte :=
  match byteAt s a, s.cfg.unwritten with
  | some b, _ => .ok b
  | none, .zero => .ok 0
  | none, .fault => .error (.unwrittenRead (.mem a))

/-- `MemWrite(a, 1, b)` (R63): that byte and its written bit, and nothing else. -/
def storeByte (s : State) (a : Addr) (b : Byte) : State :=
  { s with mem := Memory.write s.cfg.font s.mem a b }

/-! ### Registers (R21, R24, R39) -/

/-- The value held in V[x], whatever its written bit. -/
def vAt (s : State) (x : Nibble) : Byte := s.v[x.toNat]'x.isLt

/-- The written bit of V[x]. -/
def vIsWritten (s : State) (x : Nibble) : Bool := s.vWritten.getLsbD x.toNat

/-- `V[x]` as an operand. -/
def readV (s : State) (x : Nibble) : Except Fault Byte :=
  match vIsWritten s x, s.cfg.unwritten with
  | true, _ => .ok (vAt s x)
  | false, .zero => .ok 0
  | false, .fault => .error (.unwrittenRead (.v x))

/-- `V[x] <- b`, which also sets the written bit. -/
def setV (s : State) (x : Nibble) (b : Byte) : State :=
  { s with v := s.v.set x.toNat b x.isLt, vWritten := s.vWritten ||| BitVec.twoPow 16 x.toNat }

/-- `I` as an operand. -/
def readI (s : State) : Except Fault Addr :=
  match s.iWritten, s.cfg.unwritten with
  | true, _ => .ok s.i
  | false, .zero => .ok 0
  | false, .fault => .error (.unwrittenRead .i)

/-- `I <- a`, which also sets the written bit. -/
def setI (s : State) (a : Addr) : State := { s with i := a, iWritten := true }

/-- `pc <- a`. -/
def setPc (s : State) (a : Addr) : State := { s with pc := a }

/-! ### Taking a fault, and returning from the debugger (spec/60_exceptions.md) -/

/-- A fatal cause halts the core (R330, R341). -/
def Cause.fatal : Cause → Bool
  | .stackUnderflow | .stackOverflow | .outOfBoundsAccess | .romTooLarge => true
  | .none | .decodeFault | .break => false

/-- A recoverable cause suspends the core (R330, R340, R344). -/
def Cause.recoverable : Cause → Bool
  | .decodeFault | .break => true
  | .none | .stackUnderflow | .stackOverflow | .outOfBoundsAccess | .romTooLarge => false

/-- Fault entry (R339): the latch, as far as the cause records (R330), and SUSP or HALT. Everything else is preserved. -/
def enterFault (c : Cause) (word : Option Word) (addr : Option Addr) (s : State) : State :=
  { s with
    cause       := c
    faultOpcode := word.getD s.faultOpcode
    faultPc     := addr.getD s.faultPc
    susp        := s.susp || c.recoverable
    halt        := s.halt || c.fatal }

/-- `raise c` inside the tick of a word: the latch records the word and its address (R330). -/
def raiseFault (c : Cause) (s : State) : State := enterFault c (some s.curWord) (some s.curPc) s

/-- OutOfBoundsAccess at fetch (R336): `FAULT_PC` is the address, `FAULT_OPCODE` is not written, `pc` stays. -/
def raiseFetchFault (s : State) : State := enterFault .outOfBoundsAccess none (some s.pc) s

/-- Break (R344): only CAUSE and SUSP. -/
def enterBreak (s : State) : State := enterFault .break none none s

/-- ROMTooLarge (R335): only CAUSE and HALT. -/
def raiseRomTooLarge (s : State) : State := enterFault .romTooLarge none none s

/-- The run state RUN (R34). -/
inductive RunState where
  | running
  | awaitingKey
  | suspended
  | halted
deriving DecidableEq, Repr

/-- RUN, derived from the three bits, the highest priority first (R34). -/
def runState (s : State) : RunState :=
  if s.halt then .halted else if s.susp then .suspended else if s.waitK then .awaitingKey else .running

/-- `resume` (R345): while Suspended it clears SUSP, and otherwise it has no effect. -/
def resume (s : State) : State :=
  match runState s with
  | .suspended => { s with susp := false }
  | .running | .awaitingKey | .halted => s

/-- `enable-trace` (R37), taken only while Suspended (R126). -/
def enableTrace (s : State) : State :=
  match runState s with
  | .suspended => { s with trace := true }
  | .running | .awaitingKey | .halted => s

/-! ### The stack unit (R150 to R152) -/

/-- `SP = STACK_DEPTH`. -/
def stackFull (s : State) : Bool := s.sp == s.cfg.stackDepth

/-- `SP = 0`. -/
def stackEmpty (s : State) : Bool := s.sp == 0

/-- `STACK[k]`. -/
def stackAt (s : State) (k : Nat) : Addr := s.stack.getD k 0

/-- `Push(a)` then `pc <- target` (R151, R154); a full stack raises StackOverflow before any write. -/
def pushThenJump (s : State) (a target : Addr) : State :=
  if stackFull s then raiseFault .stackOverflow s
  else { s with stack := s.stack.set s.sp a, sp := s.sp + 1, pc := target }

/-- `pc <- Pop()` (R152, R155); an empty stack raises StackUnderflow before any write. The entry stays in STACK. -/
def popToPc (s : State) : State :=
  if stackEmpty s then raiseFault .stackUnderflow s
  else { s with sp := s.sp - 1, pc := stackAt s (s.sp - 1) }

/-! ### The program counter (R25, R156, R157, R336) -/

/-- `pc <- t mod 4096`, or OutOfBoundsAccess where `PC_OVERFLOW = fault` and `t` is past 0xFFF. -/
def goTo (s : State) (t : Nat) : State :=
  if s.cfg.pcOverflow = .fault ∧ 0x1000 ≤ t then raiseFault .outOfBoundsAccess s
  else setPc s (BitVec.ofNat 12 t)

/-- `Skip(cond)` (R157): `pc` already holds the instruction's address plus 2. -/
def skipIf (cond : Bool) (s : State) : State := if cond then goTo s (s.pc.toNat + 2) else s

end Sys2Proof.Machine
end

