-- ==== Sys2Proof/Machine/Operands.lean ====
section
/-! DEFINITION. The operand forms: index plus offset, the key codes, the shift source, the glyph address, the decimal
digits, and the register blocks. -/

namespace Sys2Proof.Machine

/-- V[0xF], the flag register (R22). -/
def vf : Nibble := 0xF

/-- `EA(k) = (I + k) mod 4096` (R243). -/
def ea (i : Addr) (k : Nat) : Addr := i + BitVec.ofNat 12 k

/-- Register `k` of a block (R245, R246). -/
def blockReg (k : Nat) : Nibble := BitVec.ofNat 4 k

/-- The source register of SHR and SHL (R202, R204). A register the rule does not use is not read (R39). -/
def shiftSource (s : State) (x y : Nibble) : Nibble := if s.cfg.shiftSrcVy then y else x

/-- `KEY[V[x] & 0xF]` (R162, R163): the level of the key whose code is the low nibble of a byte. -/
def keyDown (s : State) (code : Byte) : Bool := s.key.getLsbD (code &&& 0xF).toNat

/-- `min { k | KEY[k] = 1 }`, `none` where no key is down (R276, R277). -/
def lowestKey (keys : BitVec 16) : Option Nat := (List.range 16).find? (fun k => keys.getLsbD k)

/-- The key code as a register value. -/
def keyCode (k : Nat) : Byte := BitVec.ofNat 8 k

/-- The glyph address of LD F,Vx (R242). -/
def glyphAddr (cfg : Config) (digit : Byte) : Addr :=
  BitVec.ofNat 12 (5 * (if cfg.fontDigitMask then digit &&& 0xF else digit).toNat)

/-- The hundreds, tens and units of a byte (R244). -/
def bcdDigit (b : Byte) : Nat → Byte
  | 0 => b / 100
  | 1 => (b / 10) % 10
  | _ => b % 10

/-- The first `n` stores of a register block at `i` (R245): `MemWrite(EA(k), 1, V[k])`, ascending. -/
def storeRegs (i : Addr) (n : Nat) (s : State) : Except Fault State :=
  forUpTo n (fun k t => readMap (readV t (blockReg k)) (fun b => storeByte t (ea i k) b)) s

/-- The first `n` loads of a register block at `i` (R246): `V[k] <- MemRead(EA(k), 1)`, ascending. -/
def loadRegs (i : Addr) (n : Nat) (s : State) : Except Fault State :=
  forUpTo n (fun k t => readMap (readMem t (ea i k)) (fun b => setV t (blockReg k) b)) s

/-- `if LDST_INC_I: I <- (I + x + 1) mod 4096` (R245, R246). -/
def advanceI (i : Addr) (x : Nibble) (s : State) : State :=
  if s.cfg.ldstIncI then setI s (ea i (x.toNat + 1)) else s

end Sys2Proof.Machine
end

