-- ==== Sys2Proof/Machine/Flags.lean ====
section
/-! DEFINITION. The ALU with its flag (spec/42_alu.md R190 to R193) and the write-back order (R191). -/

namespace Sys2Proof.Machine

/-- The ALU functions of R193. -/
inductive AluOp where
  | pass | addnf | or | and | xor | add | sub | shr | subn | shl | rndand
deriving DecidableEq, Repr

/-- The 4-bit number of a function (R193: the numbers are labels). -/
def AluOp.code : AluOp → BitVec 4
  | .pass => 0 | .addnf => 1 | .or => 2 | .and => 3 | .xor => 4 | .add => 5 | .sub => 6 | .shr => 7 | .subn => 8
  | .shl => 9 | .rndand => 10

/-- The ALU's outputs (R190). -/
structure AluOut where
  res    : Byte
  flag   : Bool
  flagWe : Bool
deriving DecidableEq, Repr

/-- A flag as the value written to VF. -/
def flagByte (f : Bool) : Byte := if f then 1 else 0

/-- `NoBorrow(p, q)` (R193). -/
def noBorrow (cfg : Config) (p q : Byte) : Bool :=
  if q.toNat < p.toNat then true else if p = q then cfg.subEqualVf else false

/-- `s` of R193: the operand of the two shifts. -/
def shiftOperand (cfg : Config) (a b : Byte) : Byte := if cfg.shiftSrcVy then b else a

/-- The table of R193: the result and the flag of each function on `a`, `b` and the random byte `r`. -/
def alu (cfg : Config) (op : AluOp) (a b r : Byte) : AluOut :=
  match op with
  | .pass   => ⟨b, false, false⟩
  | .addnf  => ⟨a + b, false, false⟩
  | .or     => ⟨a ||| b, false, cfg.logicResetsVf⟩
  | .and    => ⟨a &&& b, false, cfg.logicResetsVf⟩
  | .xor    => ⟨a ^^^ b, false, cfg.logicResetsVf⟩
  | .add    => ⟨a + b, decide (255 < a.toNat + b.toNat), true⟩
  | .sub    => ⟨a - b, noBorrow cfg a b, true⟩
  | .shr    => ⟨shiftOperand cfg a b >>> 1, (shiftOperand cfg a b).getLsbD 0, true⟩
  | .subn   => ⟨b - a, noBorrow cfg b a, true⟩
  | .shl    => ⟨shiftOperand cfg a b <<< 1, (shiftOperand cfg a b).getLsbD 7, true⟩
  | .rndand => ⟨r &&& b, false, false⟩

/-- `WriteBack` (R191): VF first, then V[x]. -/
def writeBack (s : State) (x : Nibble) (out : AluOut) : State :=
  setV (if out.flagWe then setV s vf (flagByte out.flag) else s) x out.res

/-- A class-8 operation on V[x] and V[y], both read before any write (R192). -/
def aluXY (op : AluOp) (x y : Nibble) (s : State) : Result :=
  readThen (readV s x) fun a => readThen (readV s y) fun b => .next (writeBack s x (alu s.cfg op a b s.rnd))

/-- A shift of its source register (R202, R204): both ALU inputs carry the source, the only register that is read. -/
def aluShift (op : AluOp) (x y : Nibble) (s : State) : Result :=
  readThen (readV s (shiftSource s x y)) fun a => .next (writeBack s x (alu s.cfg op a a s.rnd))

end Sys2Proof.Machine
end

