-- ==== Sys2Proof/Machine/Alu.lean ====
section
/-! DEFINITION. The register instructions (spec/42_alu.md R194 to R205). -/

namespace Sys2Proof.Machine

/-- LD Vx,kk (R194). No register is read (R39), so the ALU's `a` input carries the constant too. -/
def execLdVxKk (x : Nibble) (kk : Byte) (s : State) : Result := .next (writeBack s x (alu s.cfg .pass kk kk s.rnd))

/-- ADD Vx,kk (R195). -/
def execAddVxKk (x : Nibble) (kk : Byte) (s : State) : Result :=
  readThen (readV s x) fun a => .next (writeBack s x (alu s.cfg .addnf a kk s.rnd))

/-- LD Vx,Vy (R196): only V[y] is read. -/
def execLdVxVy (x y : Nibble) (s : State) : Result :=
  readThen (readV s y) fun b => .next (writeBack s x (alu s.cfg .pass b b s.rnd))

/-- OR Vx,Vy (R197). -/
def execOrVxVy (x y : Nibble) (s : State) : Result := aluXY .or x y s

/-- AND Vx,Vy (R198). -/
def execAndVxVy (x y : Nibble) (s : State) : Result := aluXY .and x y s

/-- XOR Vx,Vy (R199). -/
def execXorVxVy (x y : Nibble) (s : State) : Result := aluXY .xor x y s

/-- ADD Vx,Vy (R200). -/
def execAddVxVy (x y : Nibble) (s : State) : Result := aluXY .add x y s

/-- SUB Vx,Vy (R201). -/
def execSubVxVy (x y : Nibble) (s : State) : Result := aluXY .sub x y s

/-- SHR Vx (R202). -/
def execShrVxVy (x y : Nibble) (s : State) : Result := aluShift .shr x y s

/-- SUBN Vx,Vy (R203). -/
def execSubnVxVy (x y : Nibble) (s : State) : Result := aluXY .subn x y s

/-- SHL Vx (R204). -/
def execShlVxVy (x y : Nibble) (s : State) : Result := aluShift .shl x y s

/-- RND Vx,kk (R205): the draw is the random byte of this tick, which nothing constrains. V[x] is not read. -/
def execRndVxKk (x : Nibble) (kk : Byte) (s : State) : Result := .next (writeBack s x (alu s.cfg .rndand kk kk s.rnd))

end Sys2Proof.Machine
end

