-- ==== Sys2Proof/Machine/ControlFlow.lean ====
section
/-! DEFINITION. Control flow, the call stack and the skip family (spec/41_control_flow.md). -/

namespace Sys2Proof.Machine

/-- JP nnn (R153). -/
def execJp (nnn : Addr) (s : State) : Result := .next (setPc s nnn)

/-- CALL nnn (R154): `pc` is the address of the CALL plus 2. -/
def execCall (nnn : Addr) (s : State) : Result := .next (pushThenJump s s.pc nnn)

/-- RET (R155). -/
def execRet (s : State) : Result := .next (popToPc s)

/-- JP V0,nnn (R156). -/
def execJpV0 (nnn : Addr) (s : State) : Result :=
  readThen (readV s 0) fun b => .next (goTo s (nnn.toNat + b.toNat))

/-- SE Vx,kk (R158). -/
def execSeVxKk (x : Nibble) (kk : Byte) (s : State) : Result :=
  readThen (readV s x) fun a => .next (skipIf (a == kk) s)

/-- SNE Vx,kk (R159). -/
def execSneVxKk (x : Nibble) (kk : Byte) (s : State) : Result :=
  readThen (readV s x) fun a => .next (skipIf (a != kk) s)

/-- SE Vx,Vy (R160). -/
def execSeVxVy (x y : Nibble) (s : State) : Result :=
  readThen (readV s x) fun a => readThen (readV s y) fun b => .next (skipIf (a == b) s)

/-- SNE Vx,Vy (R161). -/
def execSneVxVy (x y : Nibble) (s : State) : Result :=
  readThen (readV s x) fun a => readThen (readV s y) fun b => .next (skipIf (a != b) s)

/-- SKP Vx (R162). -/
def execSkp (x : Nibble) (s : State) : Result :=
  readThen (readV s x) fun a => .next (skipIf (keyDown s a) s)

/-- SKNP Vx (R163). -/
def execSknp (x : Nibble) (s : State) : Result :=
  readThen (readV s x) fun a => .next (skipIf (!keyDown s a) s)

end Sys2Proof.Machine
end

