-- ==== Sys2Proof/Machine/Display.lean ====
section
/-! DEFINITION. The framebuffer unit, the clear and the sprite draw (spec/45_display.md). -/

namespace Sys2Proof.Machine

/-- `FB[r][c]` (R31); false outside the grid. -/
def fbCell (fb : Framebuffer) (r c : Nat) : Bool :=
  if h : r < 32 then (fb[r]'h).getLsbD c else false

/-- `XorCell(r, c)` (R301): the framebuffer with that cell inverted; unchanged outside the grid. -/
def xorCell (fb : Framebuffer) (r c : Nat) : Framebuffer :=
  if h : r < 32 then fb.set r (fb[r]'h ^^^ BitVec.twoPow 64 c) h else fb

/-- What a draw has done so far: the framebuffer, the collision and whether a cell changed (R303). -/
structure Drawing where
  fb      : Framebuffer
  coll    : Bool
  changed : Bool
deriving DecidableEq, Repr

/-- One sprite bit (R302, R303): clear bits and bits outside the grid do nothing. Bit 7 of a row is column 0. -/
def drawBit (x0 y0 row : Nat) (byte : Byte) (col : Nat) (d : Drawing) : Drawing :=
  if byte.getLsbD (7 - col) ∧ x0 + col < 64 ∧ y0 + row < 32 then
    { fb      := xorCell d.fb (y0 + row) (x0 + col)
      coll    := d.coll || fbCell d.fb (y0 + row) (x0 + col)
      changed := true }
  else d

/-- One sprite row: its eight bits, from column 0 (R303). -/
def drawRow (x0 y0 row : Nat) (byte : Byte) (d : Drawing) : Drawing :=
  repeatUpTo 8 (fun col e => drawBit x0 y0 row byte col e) d

/-- The first `n` rows of the sprite at `i` (R303): the row's byte is `MemRead(EA(row), 1)`. -/
def drawRows (s : State) (i : Addr) (x0 y0 n : Nat) (d : Drawing) : Except Fault Drawing :=
  forUpTo n (fun row e => readMap (readMem s (ea i row)) (fun byte => drawRow x0 y0 row byte e)) d

/-- The base of a sprite of height `n`: a sprite without rows reads no address, so it does not read I (R303 "n = 0 reads
nothing", R39; log 13). -/
def spriteBase (s : State) (n : Nat) : Except Fault Addr := if n = 0 then .ok s.i else readI s

/-- The end of a draw: the cells, then VF (R305), then DIRTY (R304). -/
def finishDraw (s : State) (d : Drawing) : State :=
  let t := setV { s with fb := d.fb } vf (if d.coll then 1 else 0)
  { t with dirty := s.dirty || d.changed }

/-- CLS (R300). -/
def execCls (s : State) : Result := .next { s with fb := Vector.replicate 32 0, dirty := true }

/-- DRW Vx,Vy,n (R303): the coordinates are sampled before any write (R192). -/
def execDrw (x y n : Nibble) (s : State) : Result :=
  readThen (readV s x) fun x0 => readThen (readV s y) fun y0 => readThen (spriteBase s n.toNat) fun i =>
    readThen (drawRows s i x0.toNat y0.toNat n.toNat ⟨s.fb, false, false⟩) fun d => .next (finishDraw s d)

end Sys2Proof.Machine
end

