-- ==== Sys2Proof/Machine/Index.lean ====
section
/-! DEFINITION. The index register and the memory instructions (spec/43_index_memory.md). -/

namespace Sys2Proof.Machine

/-- LD I,nnn (R240). -/
def execLdI (nnn : Addr) (s : State) : Result := .next (setI s nnn)

/-- ADD I,Vx (R241). -/
def execAddIVx (x : Nibble) (s : State) : Result :=
  readThen (readI s) fun i => readThen (readV s x) fun a => .next (setI s (ea i a.toNat))

/-- LD F,Vx (R242). -/
def execLdFVx (x : Nibble) (s : State) : Result :=
  readThen (readV s x) fun a => .next (setI s (glyphAddr s.cfg a))

/-- LD B,Vx (R244). -/
def execLdBVx (x : Nibble) (s : State) : Result :=
  readThen (readV s x) fun a => readThen (readI s) fun i =>
    .next (repeatUpTo 3 (fun k t => storeByte t (ea i k) (bcdDigit a k)) s)

/-- LD [I],Vx (R245). -/
def execLdMemVx (x : Nibble) (s : State) : Result :=
  readThen (readI s) fun i => readThen (storeRegs i (x.toNat + 1) s) fun t => .next (advanceI i x t)

/-- LD Vx,[I] (R246). -/
def execLdVxMem (x : Nibble) (s : State) : Result :=
  readThen (readI s) fun i => readThen (loadRegs i (x.toNat + 1) s) fun t => .next (advanceI i x t)

end Sys2Proof.Machine
end

