-- ==== Sys2Proof/Machine/Timers.lean ====
section
/-! DEFINITION. The timer unit, the timer instructions and the key wait (spec/44_timers_keys.md). -/

namespace Sys2Proof.Machine

/-- A counter's decrement: never below 0 (R270, R271). -/
def countDown (t : Byte) : Byte := if t = 0 then 0 else t - 1

/-- The timer step (R270, R271) with the tone edges (R272); `st0` is ST at the start of the tick. -/
def timerStep (st0 : Byte) (s : State) : State :=
  { s with
    dt       := countDown s.dt
    st       := countDown s.st
    playTone := st0 == 0 && s.st != 0
    stopTone := (st0 != 0 || s.st != 0) && countDown s.st == 0 }

/-- LD Vx,DT (R273). -/
def execLdVxDt (x : Nibble) (s : State) : Result := .next (setV s x s.dt)

/-- LD DT,Vx (R274). -/
def execLdDtVx (x : Nibble) (s : State) : Result := readThen (readV s x) fun a => .next { s with dt := a }

/-- LD ST,Vx (R275). -/
def execLdStVx (x : Nibble) (s : State) : Result := readThen (readV s x) fun a => .next { s with st := a }

/-- LD Vx,K (R276): a key that is down is captured at once, the lowest first; otherwise the core waits. -/
def execLdVxK (x : Nibble) (s : State) : Result :=
  match lowestKey s.key with
  | some k => .next (setV s x (keyCode k))
  | none => .next { s with waitK := true, waitX := x }

/-- The capture of a waiting tick (R277). -/
def captureKey (s : State) : State :=
  match lowestKey s.key with
  | some k => { setV s s.waitX (keyCode k) with waitK := false }
  | none => s

/-- The waiting tick (R277): no fetch, no instruction, `pc` unchanged. -/
def waitingTick (keys : BitVec 16) (s : State) : State := timerStep s.st (captureKey { s with key := keys })

end Sys2Proof.Machine
end

