-- ==== Sys2Proof/Machine/Cycle.lean ====
section
/-! DEFINITION. The tick and the events that drive it (spec/40_cycle_driver.md R120 to R129, spec/60_exceptions.md R344
to R349). -/

namespace Sys2Proof.Machine

/-! ### The running tick (R121) -/

/-- The word at `pc`, big-endian (R64): `{MemRead(pc, 1), MemRead(pc + 1, 1)}`. -/
def fetchWord (s : State) : Except Fault Word :=
  match readMem s s.pc with
  | .error f => .error f
  | .ok hi =>
    match readMem s (s.pc + 1) with
    | .error f => .error f
    | .ok lo => .ok (wordOf hi lo)

/-- After the fetch of `w` (R121, R122, R129): the word and its address are current, `pc` is advanced by 2, and the trace
port presents the word when TRACE is set. -/
def beginWord (w : Word) (s : State) : State :=
  { s with
    curWord  := w
    curPc    := s.pc
    pc       := s.pc + 2
    traceOut := if s.trace then some (s.pc, w) else none }

/-- The end of a tick (R121, R124, R339): the timer step, unless the instruction's fault has halted the core. -/
def finishTick (st0 : Byte) (r : Result) : Result :=
  match r with
  | .next t => .next (if t.halt then t else timerStep st0 t)
  | .fault f => .fault f
  | .refused f => .refused f

/-- Decode and execute the word that is current (R121, R331). -/
def runWord (st0 : Byte) (s : State) : Result :=
  match decodeWord s.curWord with
  | none => .next (raiseFault .decodeFault s)
  | some i => finishTick st0 (exec i s)

/-- The inputs of a tick, one snapshot at its start (R121, R278). -/
def latchInputs (keys : BitVec 16) (rnd : Byte) (s : State) : State := { s with key := keys, rnd := rnd }

/-- A fetch that would leave memory under `PC_OVERFLOW = fault` (R121, R336). -/
def fetchOutOfBounds (s : State) : Bool := s.cfg.pcOverflow == .fault && decide (0xFFE ≤ s.pc.toNat)

/-- The running tick (R121), after its inputs are latched. -/
def runningTick (s : State) : Result :=
  if fetchOutOfBounds s then .next (raiseFetchFault s)
  else readThen (fetchWord s) fun w => runWord s.st (beginWord w s)

/-- The tick of the underlying state (R120, R345, R346): a waiting tick if WAITK, else a running tick. -/
def underlyingTick (keys : BitVec 16) (rnd : Byte) (s : State) : Result :=
  if s.waitK then .next (waitingTick keys s) else runningTick (latchInputs keys rnd s)

/-! ### Events (R126) -/

/-- The core's part of a pulse (R120, R344): the break request comes before the tick. -/
def pulseTick (keys : BitVec 16) (rnd : Byte) (brk : Bool) (s : State) : Result :=
  match runState s with
  | .halted | .suspended => .next s
  | .awaitingKey | .running => if brk then .next (enterBreak s) else underlyingTick keys rnd s

/-- Step 4 of R126: the Display Adapter's render reads DIRTY, and then `dirty_clr` clears it (R307). -/
def renderThenClear (dirtyClr : Bool) (s : State) : State :=
  { s with renderDirty := some s.dirty, dirty := s.dirty && !dirtyClr }

/-- The render after the core's part of a pulse, where that part answers a state. -/
def renderAfter (dirtyClr : Bool) (r : Result) : Result :=
  match r with
  | .next t => .next (renderThenClear dirtyClr t)
  | .fault f => .fault f
  | .refused f => .refused f

/-- A pulse (R126). A core that is Halted at the pulse does not take `dirty_clr` (R349; log 10); the pulse whose own tick
halts the core does (R307: "taken after the tick of the pulse"). -/
def takePulse (keys : BitVec 16) (rnd : Byte) (brk dirtyClr : Bool) (s : State) : Result :=
  renderAfter (dirtyClr && !s.halt) (pulseTick keys rnd brk s)

/-- The debugger's `step` (R346): one tick while Suspended; SUSP stays set, because no tick clears it. -/
def takeSingleStep (keys : BitVec 16) (rnd : Byte) (s : State) : Result :=
  match runState s with
  | .suspended => underlyingTick keys rnd s
  | .running | .awaitingKey | .halted => .next s

/-- The next external event: the oldest scheduled one, or else a pulse whose inputs are free values, without a break
(K1.7, K1.8, K2.9; log 4). -/
def nextEvent (s : State) : Event :=
  match s.events with
  | e :: _ => e
  | [] => .pulse (Config.freeKeys s.eventNo) (Config.freeRnd s.eventNo) false (Config.freeDirtyClr s.eventNo)

/-- The state as an event finds it: the event is off the schedule, and no edge, no trace word and no render is presented yet
(R126, R129, R272). -/
def beginEvent (s : State) : State :=
  { s with
    events      := s.events.tail
    eventNo     := s.eventNo + 1
    playTone    := false
    stopTone    := false
    traceOut    := none
    renderDirty := none }

/-- The effect of an event (R126). -/
def takeEvent (e : Event) (s : State) : Result :=
  match e with
  | .pulse keys rnd brk dirtyClr => takePulse keys rnd brk dirtyClr s
  | .resume => .next (resume s)
  | .singleStep keys rnd => takeSingleStep keys rnd s
  | .enableTrace => .next (enableTrace s)
  | .memdump | .printRegisters => .next s

/-! ### Placing a word for the next step -/

/-- The state with a word placed at `pc`, Running, with a plain pulse as its next event: no break, no `dirty_clr`, and the
inputs that are latched already (log 9). -/
def placeWord (s : State) (w : Word) : State :=
  { storeByte (storeByte s s.pc (hiByte w)) (s.pc + 1) (loByte w) with
    halt   := false
    susp   := false
    waitK  := false
    events := .pulse s.key s.rnd false false :: s.events }

end Sys2Proof.Machine
end

