-- ==== Sys2Proof/Machine/Step.lean ====
section
/-! DEFINITION. One step of the machine: it takes the next external event (spec/40_cycle_driver.md R120, R126). -/

namespace Sys2Proof.Machine

/-- One step: the next event on this state. -/
def step (s : State) : Host.Outcome State Fault Refusal := takeEvent (nextEvent s) (beginEvent s)

/-- `s` with the instruction of a row of spec/opcode_table.json placed where the next step fetches (log 9). -/
def State.withFetchWord (s : State) (nbits w : Nat) : State :=
  Sys2Proof.Machine.placeWord s (BitVec.ofNat 16 (w % 2 ^ nbits))

end Sys2Proof.Machine
end

