-- ==== Sys2Proof/Machine/Ports.lean ====
section
/-! DEFINITION. The output ports that are read off the state (spec/40_cycle_driver.md R127), and the debugger's read
views (spec/10_state.md R39). No port has a side effect. -/

namespace Sys2Proof.Machine

/-- The 3-bit code of a cause (R35). -/
def Cause.code : Cause → BitVec 3
  | .none => 0
  | .decodeFault => 1
  | .stackUnderflow => 2
  | .stackOverflow => 3
  | .outOfBoundsAccess => 4
  | .romTooLarge => 5
  | .break => 6

/-- The 2-bit code of the run state (R127). -/
def RunState.code : RunState → BitVec 2
  | .running => 0
  | .awaitingKey => 1
  | .suspended => 2
  | .halted => 3

/-- `run_state` (R127). -/
def portRunState (s : State) : BitVec 2 := (runState s).code

/-- `cause` (R127). -/
def portCause (s : State) : BitVec 3 := s.cause.code

/-- `tone` (R272): between ticks, whether ST is nonzero. -/
def portTone (s : State) : Bool := s.st != 0

/-- Bit `r*64+c` of the port `fb` (R31, R127). -/
def portFb (s : State) (k : Nat) : Bool := fbCell s.fb (k / 64) (k % 64)

/-- What a read view shows of a cell: its value where written, 0 under `UNWRITTEN = zero`, and else nothing (R39). -/
def shownCell {α : Type} (cfg : Config) (zero : α) (value : Option α) : Option α :=
  match value, cfg.unwritten with
  | some a, _ => some a
  | none, .zero => some zero
  | none, .fault => none

/-- The debugger's view of V[x]. It never faults. -/
def dbgV (s : State) (x : Nibble) : Option Byte :=
  shownCell s.cfg 0 (if vIsWritten s x then some (vAt s x) else none)

/-- The debugger's view of I. It never faults. -/
def dbgI (s : State) : Option Addr := shownCell s.cfg 0 (if s.iWritten then some s.i else none)

/-- `memdump`'s view of a byte. It never faults. -/
def dbgMem (s : State) (a : Addr) : Option Byte := shownCell s.cfg 0 (byteAt s a)

/-- What the Display Adapter's `render(framebuffer, dirty)` of the last event read (R126 step 4, R127). -/
def portRender (s : State) : Option (Framebuffer × Bool) := s.renderDirty.map fun d => (s.fb, d)

/-- `trace_valid` (R127). -/
def portTraceValid (s : State) : Bool := s.traceOut.isSome

end Sys2Proof.Machine
end

