-- ==== Sys2Proof/Machine/Boot.lean ====
section
/-! DEFINITION. The launch (spec/70_reset_and_hazards.md R370, R371): reset, font load, ROM size check, ROM load. -/

namespace Sys2Proof.Machine

/-- Step 1 of R370: every piece of state at its reset value, for any parameters. The font of step 2 is what the unlisted
addresses 0x000..0x04F read as. -/
def resetWith (cfg : Config) : State :=
  { State.reset with cfg := cfg, stack := List.replicate cfg.stackDepth resetStackEntry }

/-- Step 4 of R370: the first `n` bytes of the ROM, verbatim from 0x200. -/
def loadRom (rom : List Byte) (n : Nat) (s : State) : State :=
  repeatUpTo n (fun k t => storeByte t (progBase + BitVec.ofNat 12 k) (rom.getD k 0)) s

/-- The launch (R370): a ROM over 0xE00 bytes raises ROMTooLarge and is not loaded (R371). -/
def launch (cfg : Config) (rom : List Byte) : State :=
  if romWellFormed rom then loadRom rom rom.length (resetWith cfg)
  else raiseRomTooLarge (resetWith cfg)

end Sys2Proof.Machine
end

