-- ==== Sys2Proof/Safety.lean ====
section
/-! DEFINITION. The terms in which statements about the machine are written: what a step may leave unchanged, the
invariants, the operands an instruction reads, and the shape of a sprite. -/

namespace Sys2Proof.Machine

/-! ### Frames -/

/-- Every register outside `D` keeps its value and its written bit. -/
def KeepsRegs (s t : State) (D : Nibble → Prop) : Prop :=
  ∀ r, ¬ D r → vAt t r = vAt s r ∧ vIsWritten t r = vIsWritten s r

/-- Every byte outside `A` reads as before, unwritten bytes included. -/
def KeepsBytes (s t : State) (A : Addr → Prop) : Prop := ∀ a, ¬ A a → byteAt t a = byteAt s a

/-- Only registers in `D` may differ: not I, `pc`, the stack, the timers, a byte of memory, the framebuffer, or any of the
status state. -/
def OnlyRegs (s t : State) (D : Nibble → Prop) : Prop :=
  t = { s with v := t.v, vWritten := t.vWritten } ∧ KeepsRegs s t D ∧ KeepsBytes s t (fun _ => False)

/-- V[x] is written with `res`, and nothing else happens. -/
def WritesReg (s t : State) (x : Nibble) (res : Nat) : Prop :=
  (vAt t x).toNat = res ∧ vIsWritten t x = true ∧ OnlyRegs s t (fun r => r = x)

/-- VF is written with `flag`, then V[x] with `res` (R191), and nothing else happens: for x = F the result stays. -/
def WritesRegAndFlag (s t : State) (x : Nibble) (res flag : Nat) : Prop :=
  (vAt t x).toNat = res ∧ vIsWritten t x = true ∧
    (x ≠ 0xF → (vAt t 0xF).toNat = flag ∧ vIsWritten t 0xF = true) ∧ OnlyRegs s t (fun r => r = x ∨ r = 0xF)

/-- Only I (with its written bit) may differ. -/
def OnlyI (s t : State) : Prop :=
  t = { s with i := t.i, iWritten := t.iWritten } ∧ KeepsRegs s t (fun _ => False) ∧ KeepsBytes s t (fun _ => False)

/-- Only `pc` may differ. -/
def OnlyPc (s t : State) : Prop :=
  t = { s with pc := t.pc } ∧ KeepsRegs s t (fun _ => False) ∧ KeepsBytes s t (fun _ => False)

/-- The state a fatal fault of the current word leaves (R330, R339, R341): the latch and HALT, nothing else. -/
def haltedBy (c : Cause) (s : State) : State :=
  { s with cause := c, faultOpcode := s.curWord, faultPc := s.curPc, halt := true }

/-- The state after a jump to `target` (R25): `target mod 4096`, or the fatal OutOfBoundsAccess where `PC_OVERFLOW = fault`
and `target` is past 0xFFF. -/
def jumpedTo (s : State) (target : Nat) : State :=
  if s.cfg.pcOverflow = .fault ∧ 0x1000 ≤ target then haltedBy .outOfBoundsAccess s
  else { s with pc := BitVec.ofNat 12 (target % 4096) }

/-- `t` follows `s` by a jump to `target`, and no register and no byte of memory has changed. -/
def Jumps (s t : State) (target : Nat) : Prop :=
  t = jumpedTo s target ∧ KeepsRegs s t (fun _ => False) ∧ KeepsBytes s t (fun _ => False)

/-- `t` follows `s` by the skip of R157 on a condition; without it nothing changes. -/
def Skips (s t : State) (cond : Prop) : Prop := (cond → Jumps s t (s.pc.toNat + 2)) ∧ (¬ cond → t = s)

/-- The state as the tick of a pulse finds it: the event is off the schedule and no output is presented yet. -/
def afterEvent (s : State) : State :=
  { s with events := s.events.tail, eventNo := s.eventNo + 1, playTone := false, stopTone := false, traceOut := none,
           renderDirty := none }

/-- The state as the instruction `w` at `pc` finds it (R121, R122): inputs latched, word current, `pc` advanced. -/
def atExecute (s : State) (keys : BitVec 16) (rnd : Byte) (w : Word) : State :=
  { afterEvent s with
    key := keys, rnd := rnd, curWord := w, curPc := s.pc, pc := s.pc + 2,
    traceOut := if s.trace then some (s.pc, w) else none }

/-- The fetch may go ahead: not the OutOfBoundsAccess of R336. -/
def FetchInBounds (s : State) : Prop := ¬ (s.cfg.pcOverflow = .fault ∧ 0xFFE ≤ s.pc.toNat)

/-! ### Invariants -/

/-- Memory is in its canonical form, STACK has its capacity, and SP is within it (R27, R28, R60). -/
def State.Inv (s : State) : Prop :=
  Memory.wf s.cfg.font s.mem ∧ s.stack.length = s.cfg.stackDepth ∧ s.sp ≤ s.cfg.stackDepth

/-- The latch explains the run state (R35, R340, R341): a halted core has a fatal cause, and a suspended core that is not
halted has a recoverable one. -/
def State.CauseInv (s : State) : Prop :=
  (s.halt = true → s.cause.fatal = true) ∧ (s.susp = true → s.halt = false → s.cause.recoverable = true)

/-- Every register and every byte of memory can be read: nothing is unwritten, or `UNWRITTEN = zero` (R39). -/
def State.AllReadable (s : State) : Prop :=
  s.cfg.unwritten = .zero ∨ ((∀ x, vIsWritten s x = true) ∧ s.iWritten = true ∧ ∀ a, (byteAt s a).isSome = true)

/-- The registers and I can be read, whatever has been written to memory. -/
def State.RegsReadable (s : State) : Prop :=
  s.cfg.unwritten = .zero ∨ ((∀ x, vIsWritten s x = true) ∧ s.iWritten = true)

/-- A step that does not end the run. -/
def State.Continues (s : State) : Prop := ∃ t, step s = .next t

/-! ### Sprites (R302, R303) -/

/-- The sprite with rows `bytes 0 .. bytes (n-1)` at column `x0` and row `y0` has a set bit on the cell (r, c) of the grid. -/
def SpriteCovers (bytes : Nat → Byte) (x0 y0 n r c : Nat) : Prop :=
  r < 32 ∧ c < 64 ∧ y0 ≤ r ∧ r < y0 + n ∧ x0 ≤ c ∧ c < x0 + 8 ∧ (bytes (r - y0)).getLsbD (7 - (c - x0)) = true

end Sys2Proof.Machine
end

