-- ==== Sys2Proof/Certificates/Slice0/Obligations.lean ====
section
/-! DEFINITION. The statements about the machine, from the numbered rules of spec/. A premise `readV s x = .ok a` says that
V[x] can be read (R39) and that its value is `a`; it holds of every register in every state reached from reset. -/

open Sys2Proof Sys2Proof.Machine

/-! ### Encoding (spec/30_encoding.md) -/

/-- Words of 95_test_vectors.md section 2.1 decode as that table says. -/
def Obligations.WordsOfTheSpecDecode : Prop :=
  decodeWord 0x00E0 = some (.cls 0) ∧ decodeWord 0x01E0 = some (.cls 1) ∧ decodeWord 0x0FEE = some (.ret 0xF) ∧
  decodeWord 0x0000 = none ∧ decodeWord 0x0123 = none ∧ decodeWord 0x1ABC = some (.jp 0xABC) ∧
  decodeWord 0x5121 = some (.seVxVy 1 2 1) ∧ decodeWord 0x912F = some (.sneVxVy 1 2 0xF) ∧ decodeWord 0x8008 = none ∧
  decodeWord 0x812E = some (.shlVxVy 1 2) ∧ decodeWord 0xE3A1 = some (.sknp 3) ∧ decodeWord 0xE09F = none ∧
  decodeWord 0xF30A = some (.ldVxK 3) ∧ decodeWord 0xF565 = some (.ldVxMem 5) ∧ decodeWord 0xF0FF = none ∧
  decodeWord 0x6A7B = some (.ldVxKk 0xA 0x7B) ∧ decodeWord 0xD015 = some (.drw 0 1 5)

/-- Decoding the encoding of an instruction gives it back, from its word and from its bytes, whatever follows them. -/
def Obligations.DecodeOfEncodeGivesBack : Prop :=
  ∀ (i : Instr) (rest : List Byte), decodeWord (encode i) = some i ∧ decodeBytes (encodeBytes i ++ rest) = .ok (i, rest)

/-- A word that decodes is the encoding of what it decodes to: decoding drops no bit. -/
def Obligations.EncodeOfDecodeGivesBack : Prop := ∀ (w : Word) (i : Instr), decodeWord w = some i → encode i = w

/-- R94: the two-level dispatch selects an operation exactly where the word matches that operation's row of the map; a word
matches at most one row; a word that matches none is a decode fault. -/
def Obligations.DispatchFollowsTheOpcodeMap : Prop :=
  ∀ w : Word,
    (∀ op : Op, dispatch w = some op ↔ ∃ row ∈ opcodeMap, row.op = op ∧ w &&& row.mask = row.pattern) ∧
    (∀ p ∈ opcodeMap, ∀ q ∈ opcodeMap, w &&& p.mask = p.pattern → w &&& q.mask = q.pattern → p = q) ∧
    ((∀ row ∈ opcodeMap, w &&& row.mask ≠ row.pattern) → dispatch w = none)

/-- R64: the word at `pc` is big-endian, and the second byte's address wraps at 0xFFF. -/
def Obligations.FetchIsBigEndian : Prop :=
  ∀ (s : State) (hi lo : Byte), readMem s s.pc = .ok hi →
    readMem s (BitVec.ofNat 12 ((s.pc.toNat + 1) % 4096)) = .ok lo →
    ∃ w, fetchWord s = .ok w ∧ w.toNat = 256 * hi.toNat + lo.toNat

/-! ### Registers (spec/42_alu.md) -/

/-- R194, R196. -/
def Obligations.LoadsWriteTheirRegister : Prop :=
  ∀ (s : State) (x y : Nibble) (kk b : Byte),
    (decodeWord (0x6#4 ++ x ++ kk) = some (.ldVxKk x kk) ∧
      ∃ t, exec (.ldVxKk x kk) s = .next t ∧ WritesReg s t x kk.toNat) ∧
    (decodeWord (0x8#4 ++ x ++ y ++ 0x0#4) = some (.ldVxVy x y) ∧
      (readV s y = .ok b → ∃ t, exec (.ldVxVy x y) s = .next t ∧ WritesReg s t x b.toNat))

/-- R195: the sum mod 256, and no flag. -/
def Obligations.AddConstantWrapsWithoutFlag : Prop :=
  ∀ (s : State) (x : Nibble) (kk a : Byte), decodeWord (0x7#4 ++ x ++ kk) = some (.addVxKk x kk) ∧
    (readV s x = .ok a →
      ∃ t, exec (.addVxKk x kk) s = .next t ∧ WritesReg s t x ((a.toNat + kk.toNat) % 256))

/-- R197, R198, R199: the bitwise results; VF is cleared first where `LOGIC_RESETS_VF`, and is otherwise unchanged. -/
def Obligations.LogicWritesBitwiseResult : Prop :=
  ∀ (s : State) (x y : Nibble) (a b : Byte),
    decodeWord (0x8#4 ++ x ++ y ++ 0x1#4) = some (.orVxVy x y) ∧
    decodeWord (0x8#4 ++ x ++ y ++ 0x2#4) = some (.andVxVy x y) ∧
    decodeWord (0x8#4 ++ x ++ y ++ 0x3#4) = some (.xorVxVy x y) ∧
    (readV s x = .ok a → readV s y = .ok b →
      ∀ p ∈ [(Instr.orVxVy x y, a.toNat ||| b.toNat), (Instr.andVxVy x y, a.toNat &&& b.toNat),
             (Instr.xorVxVy x y, a.toNat ^^^ b.toNat)],
        ∃ t, exec p.1 s = .next t ∧
          (s.cfg.logicResetsVf = true → WritesRegAndFlag s t x p.2 0) ∧
          (s.cfg.logicResetsVf = false → WritesReg s t x p.2))

/-- R200: the carry first, then the wrapped sum. -/
def Obligations.AddWritesCarryThenSum : Prop :=
  ∀ (s : State) (x y : Nibble) (a b : Byte), decodeWord (0x8#4 ++ x ++ y ++ 0x4#4) = some (.addVxVy x y) ∧
    (readV s x = .ok a → readV s y = .ok b →
      ∃ t, exec (.addVxVy x y) s = .next t ∧
        WritesRegAndFlag s t x ((a.toNat + b.toNat) % 256) (if 255 < a.toNat + b.toNat then 1 else 0))

/-- R201, R203: the difference mod 256, and the flag "no borrow" with one tie policy for both. -/
def Obligations.SubAndSubnWriteNoBorrowThenDifference : Prop :=
  ∀ (s : State) (x y : Nibble) (a b : Byte),
    decodeWord (0x8#4 ++ x ++ y ++ 0x5#4) = some (.subVxVy x y) ∧
    decodeWord (0x8#4 ++ x ++ y ++ 0x7#4) = some (.subnVxVy x y) ∧
    (readV s x = .ok a → readV s y = .ok b →
      ∀ p ∈ [(Instr.subVxVy x y, a.toNat, b.toNat), (Instr.subnVxVy x y, b.toNat, a.toNat)],
        ∃ t, exec p.1 s = .next t ∧
          WritesRegAndFlag s t x ((p.2.1 + 256 - p.2.2) % 256)
            (if p.2.2 < p.2.1 then 1 else if p.2.1 = p.2.2 then (if s.cfg.subEqualVf then 1 else 0) else 0))

/-- R202, R204: the bit shifted out, then the shifted value; the source is Vy where `SHIFT_SRC_VY`, else Vx. That only the
source is read, so that the other register need not be readable, is the model's choice (log 14), from R39. -/
def Obligations.ShiftsWriteLostBitThenResult : Prop :=
  ∀ (s : State) (x y : Nibble) (a : Byte),
    decodeWord (0x8#4 ++ x ++ y ++ 0x6#4) = some (.shrVxVy x y) ∧
    decodeWord (0x8#4 ++ x ++ y ++ 0xE#4) = some (.shlVxVy x y) ∧
    (readV s (if s.cfg.shiftSrcVy then y else x) = .ok a →
      (∃ t, exec (.shrVxVy x y) s = .next t ∧ WritesRegAndFlag s t x (a.toNat / 2) (a.toNat % 2)) ∧
      (∃ t, exec (.shlVxVy x y) s = .next t ∧ WritesRegAndFlag s t x (2 * a.toNat % 256) (a.toNat / 128)))

/-- R205: the draw of this tick AND the mask, for every draw. -/
def Obligations.RndMasksTheDraw : Prop :=
  ∀ (s : State) (x : Nibble) (kk : Byte), decodeWord (0xC#4 ++ x ++ kk) = some (.rndVxKk x kk) ∧
    ∃ t, exec (.rndVxKk x kk) s = .next t ∧ WritesReg s t x (s.rnd.toNat &&& kk.toNat)

/-! ### Control flow (spec/41_control_flow.md) -/

/-- R153. -/
def Obligations.JumpSetsPc : Prop :=
  ∀ (s : State) (nnn : Addr), decodeWord (0x1#4 ++ nnn) = some (.jp nnn) ∧
    ∃ t, exec (.jp nnn) s = .next t ∧ t.pc = nnn ∧ OnlyPc s t

/-- R151, R154: the post-fetch `pc` goes on the stack, or a full stack is the fatal StackOverflow with nothing written. -/
def Obligations.CallPushesReturnAddress : Prop :=
  ∀ (s : State) (nnn : Addr), decodeWord (0x2#4 ++ nnn) = some (.call nnn) ∧
    (s.Inv →
      (s.sp < s.cfg.stackDepth →
        ∃ t, exec (.call nnn) s = .next t ∧ t.pc = nnn ∧ t.sp = s.sp + 1 ∧ stackAt t s.sp = s.pc ∧
          (∀ k, k ≠ s.sp → stackAt t k = stackAt s k) ∧
          t = { s with pc := t.pc, sp := t.sp, stack := t.stack } ∧
          KeepsRegs s t (fun _ => False) ∧ KeepsBytes s t (fun _ => False)) ∧
      (s.sp = s.cfg.stackDepth → exec (.call nnn) s = .next (haltedBy .stackOverflow s)))

/-- R152, R155: the most recent entry goes to `pc` and stays in STACK; an empty stack is the fatal StackUnderflow. -/
def Obligations.RetPopsIntoPc : Prop :=
  ∀ (s : State) (h : Nibble), decodeWord (0x0#4 ++ h ++ 0xEE#8) = some (.ret h) ∧
    (0 < s.sp →
      ∃ t, exec (.ret h) s = .next t ∧ t.pc = stackAt s (s.sp - 1) ∧ t.sp = s.sp - 1 ∧
        t = { s with pc := t.pc, sp := t.sp } ∧
        KeepsRegs s t (fun _ => False) ∧ KeepsBytes s t (fun _ => False)) ∧
    (s.sp = 0 → exec (.ret h) s = .next (haltedBy .stackUnderflow s))

/-- R156: `nnn` plus V0, reduced mod 4096, or the fatal OutOfBoundsAccess under `PC_OVERFLOW = fault`. -/
def Obligations.JumpV0AddsV0 : Prop :=
  ∀ (s : State) (nnn : Addr) (b : Byte), decodeWord (0xB#4 ++ nnn) = some (.jpV0 nnn) ∧
    (readV s 0 = .ok b →
      ((s.cfg.pcOverflow = .wrap ∨ nnn.toNat + b.toNat < 4096) →
        ∃ t, exec (.jpV0 nnn) s = .next t ∧ t.pc.toNat = (nnn.toNat + b.toNat) % 4096 ∧ OnlyPc s t) ∧
      ((s.cfg.pcOverflow = .fault ∧ 4096 ≤ nnn.toNat + b.toNat) →
        exec (.jpV0 nnn) s = .next (haltedBy .outOfBoundsAccess s)))

/-- R157, R158, R159, R160, R161: the register skips. -/
def Obligations.RegisterSkipsAdvanceTwoMore : Prop :=
  ∀ (s : State) (x y h : Nibble) (kk a b : Byte),
    decodeWord (0x3#4 ++ x ++ kk) = some (.seVxKk x kk) ∧
    decodeWord (0x4#4 ++ x ++ kk) = some (.sneVxKk x kk) ∧
    decodeWord (0x5#4 ++ x ++ y ++ h) = some (.seVxVy x y h) ∧
    decodeWord (0x9#4 ++ x ++ y ++ h) = some (.sneVxVy x y h) ∧
    (readV s x = .ok a →
      (∃ t, exec (.seVxKk x kk) s = .next t ∧ Skips s t (a = kk)) ∧
      (∃ t, exec (.sneVxKk x kk) s = .next t ∧ Skips s t (a ≠ kk))) ∧
    (readV s x = .ok a → readV s y = .ok b →
      (∃ t, exec (.seVxVy x y h) s = .next t ∧ Skips s t (a = b)) ∧
      (∃ t, exec (.sneVxVy x y h) s = .next t ∧ Skips s t (a ≠ b)))

/-- R162, R163: the key skips test the key whose code is the low nibble of Vx in this tick's snapshot. -/
def Obligations.KeySkipsTestTheSnapshot : Prop :=
  ∀ (s : State) (x : Nibble) (a : Byte),
    decodeWord (0xE#4 ++ x ++ 0x9E#8) = some (.skp x) ∧ decodeWord (0xE#4 ++ x ++ 0xA1#8) = some (.sknp x) ∧
    (readV s x = .ok a →
      (∃ t, exec (.skp x) s = .next t ∧ Skips s t (s.key.getLsbD (a.toNat % 16) = true)) ∧
      (∃ t, exec (.sknp x) s = .next t ∧ Skips s t (s.key.getLsbD (a.toNat % 16) = false)))

/-- The document's property of R154: a CALL and a later RET at the same depth come back to the instruction after the CALL,
at every depth below the capacity. -/
def Obligations.RetAfterCallReturns : Prop :=
  ∀ (s t u : State) (nnn : Addr) (h : Nibble), s.Inv → s.sp < s.cfg.stackDepth → exec (.call nnn) s = .next t →
    u.stack = t.stack → u.sp = t.sp → ∃ v, exec (.ret h) u = .next v ∧ v.pc = s.pc ∧ v.sp = s.sp

/-! ### Index and memory (spec/43_index_memory.md, spec/20_memory.md) -/

/-- R240. -/
def Obligations.LoadIndexSetsI : Prop :=
  ∀ (s : State) (nnn : Addr), decodeWord (0xA#4 ++ nnn) = some (.ldI nnn) ∧
    ∃ t, exec (.ldI nnn) s = .next t ∧ t.i = nnn ∧ t.iWritten = true ∧ OnlyI s t

/-- R241: mod 4096, and VF is not written. -/
def Obligations.AddIndexWraps : Prop :=
  ∀ (s : State) (x : Nibble) (i : Addr) (a : Byte), decodeWord (0xF#4 ++ x ++ 0x1E#8) = some (.addIVx x) ∧
    (readI s = .ok i → readV s x = .ok a →
      ∃ t, exec (.addIVx x) s = .next t ∧ t.i.toNat = (i.toNat + a.toNat) % 4096 ∧ t.iWritten = true ∧ OnlyI s t)

/-- R242: five times the digit, of the whole register or of its low nibble. -/
def Obligations.LoadGlyphAddress : Prop :=
  ∀ (s : State) (x : Nibble) (a : Byte), decodeWord (0xF#4 ++ x ++ 0x29#8) = some (.ldFVx x) ∧
    (readV s x = .ok a →
      ∃ t, exec (.ldFVx x) s = .next t ∧
        t.i.toNat = 5 * (if s.cfg.fontDigitMask then a.toNat % 16 else a.toNat) ∧ t.iWritten = true ∧ OnlyI s t)

/-- R244: hundreds, tens and units at I, I+1, I+2, and no other byte. -/
def Obligations.BcdStoresThreeDigits : Prop :=
  ∀ (s : State) (x : Nibble) (a : Byte) (i : Addr), decodeWord (0xF#4 ++ x ++ 0x33#8) = some (.ldBVx x) ∧
    (readV s x = .ok a → readI s = .ok i →
      ∃ t, exec (.ldBVx x) s = .next t ∧
        byteAt t (ea i 0) = some (BitVec.ofNat 8 (a.toNat / 100)) ∧
        byteAt t (ea i 1) = some (BitVec.ofNat 8 (a.toNat / 10 % 10)) ∧
        byteAt t (ea i 2) = some (BitVec.ofNat 8 (a.toNat % 10)) ∧
        t = { s with mem := t.mem } ∧ KeepsRegs s t (fun _ => False) ∧
        KeepsBytes s t (fun p => p = ea i 0 ∨ p = ea i 1 ∨ p = ea i 2))

/-- R245: V0..Vx at I..I+x, and I advanced by x+1 where `LDST_INC_I`. -/
def Obligations.BlockStoreWritesMemory : Prop :=
  ∀ (s : State) (x : Nibble) (i : Addr) (vals : Nat → Byte), decodeWord (0xF#4 ++ x ++ 0x55#8) = some (.ldMemVx x) ∧
    (readI s = .ok i → (∀ k ≤ x.toNat, readV s (BitVec.ofNat 4 k) = .ok (vals k)) →
      ∃ t, exec (.ldMemVx x) s = .next t ∧
        (∀ k ≤ x.toNat, byteAt t (ea i k) = some (vals k)) ∧
        (s.cfg.ldstIncI = true → t.i.toNat = (i.toNat + x.toNat + 1) % 4096 ∧ t.iWritten = true) ∧
        (s.cfg.ldstIncI = false → t.i = s.i ∧ t.iWritten = s.iWritten) ∧
        t = { s with mem := t.mem, i := t.i, iWritten := t.iWritten } ∧ KeepsRegs s t (fun _ => False) ∧
        KeepsBytes s t (fun p => ∃ k ≤ x.toNat, p = ea i k))

/-- R246: V0..Vx from I..I+x, with the same rule for I. -/
def Obligations.BlockLoadWritesRegisters : Prop :=
  ∀ (s : State) (x : Nibble) (i : Addr) (vals : Nat → Byte), decodeWord (0xF#4 ++ x ++ 0x65#8) = some (.ldVxMem x) ∧
    (readI s = .ok i → (∀ k ≤ x.toNat, readMem s (ea i k) = .ok (vals k)) →
      ∃ t, exec (.ldVxMem x) s = .next t ∧
        (∀ k ≤ x.toNat, vAt t (BitVec.ofNat 4 k) = vals k ∧ vIsWritten t (BitVec.ofNat 4 k) = true) ∧
        (s.cfg.ldstIncI = true → t.i.toNat = (i.toNat + x.toNat + 1) % 4096 ∧ t.iWritten = true) ∧
        (s.cfg.ldstIncI = false → t.i = s.i ∧ t.iWritten = s.iWritten) ∧
        t = { s with v := t.v, vWritten := t.vWritten, i := t.i, iWritten := t.iWritten } ∧
        KeepsRegs s t (fun r => r.toNat ≤ x.toNat) ∧ KeepsBytes s t (fun _ => False))

/-- The document's round trip (R246): after a block store, the load of the same x from the same start gives back V0..Vx,
whatever the registers hold in between. -/
def Obligations.BlockLoadAfterStoreGivesBack : Prop :=
  ∀ (s t u : State) (x : Nibble) (i : Addr) (vals : Nat → Byte), readI s = .ok i →
    (∀ k ≤ x.toNat, readV s (BitVec.ofNat 4 k) = .ok (vals k)) → exec (.ldMemVx x) s = .next t →
    u = { t with v := u.v, vWritten := u.vWritten, i := i, iWritten := true } →
    ∃ v, exec (.ldVxMem x) u = .next v ∧ (∀ k ≤ x.toNat, vAt v (BitVec.ofNat 4 k) = vals k) ∧
      (s.cfg.ldstIncI = true → v.i = t.i)

/-- R63: a write changes that one byte and its written bit, and nothing else. -/
def Obligations.StoreWritesOneByte : Prop :=
  ∀ (s : State) (a : Addr) (b : Byte),
    byteAt (storeByte s a b) a = some b ∧ KeepsBytes s (storeByte s a b) (fun p => p = a) ∧
    storeByte s a b = { s with mem := (storeByte s a b).mem }

/-- R39, R62: what a read of a written cell and of an unwritten one answers, for V, I and memory; a cell that has been
written stays written through every step. -/
def Obligations.ReadsFollowTheWrittenBits : Prop :=
  ∀ s : State,
    (∀ x, readV s x = if vIsWritten s x then .ok (vAt s x)
      else if s.cfg.unwritten = .zero then .ok 0 else .error (.unwrittenRead (.v x))) ∧
    (readI s = if s.iWritten then .ok s.i
      else if s.cfg.unwritten = .zero then .ok 0 else .error (.unwrittenRead .i)) ∧
    (∀ a b, byteAt s a = some b → readMem s a = .ok b) ∧
    (∀ a, byteAt s a = none →
      readMem s a = if s.cfg.unwritten = .zero then .ok 0 else .error (.unwrittenRead (.mem a))) ∧
    (∀ t, step s = .next t →
      (∀ x, vIsWritten s x = true → vIsWritten t x = true) ∧ (s.iWritten = true → t.iWritten = true) ∧
      (∀ a, (byteAt s a).isSome = true → (byteAt t a).isSome = true))

/-! ### Timers and keys (spec/44_timers_keys.md) -/

/-- R270, R271, R272: the timer step, the tone, and no edge in a pulse that runs no tick. -/
def Obligations.TimerStepCountsDown : Prop :=
  (∀ (s : State) (st0 : Byte),
    (timerStep st0 s).dt.toNat = s.dt.toNat - 1 ∧ (timerStep st0 s).st.toNat = s.st.toNat - 1 ∧
    ((timerStep st0 s).playTone = true ↔ st0 = 0 ∧ s.st ≠ 0) ∧
    ((timerStep st0 s).stopTone = true ↔ (st0 ≠ 0 ∨ s.st ≠ 0) ∧ (timerStep st0 s).st = 0) ∧
    (portTone s = true ↔ s.st ≠ 0) ∧
    timerStep st0 s = { s with dt := (timerStep st0 s).dt, st := (timerStep st0 s).st,
                               playTone := (timerStep st0 s).playTone, stopTone := (timerStep st0 s).stopTone }) ∧
  (∀ (s t : State) (keys : BitVec 16) (rnd : Byte) (brk clr : Bool), nextEvent s = .pulse keys rnd brk clr →
    (brk = true ∨ runState s = .suspended ∨ runState s = .halted) → step s = .next t →
    t.playTone = false ∧ t.stopTone = false)

/-- R273: the value before this tick's decrement, which follows. -/
def Obligations.ReadDelayTimer : Prop :=
  ∀ (s : State) (x : Nibble), decodeWord (0xF#4 ++ x ++ 0x07#8) = some (.ldVxDt x) ∧
    ∃ t, exec (.ldVxDt x) s = .next t ∧ WritesReg s t x s.dt.toNat ∧
      (timerStep s.st t).dt.toNat = s.dt.toNat - 1

/-- R274, R275: the timer is set, and the same tick decrements it; the tone edges of that tick for ST. -/
def Obligations.SetTimersAreDecrementedInTheSameTick : Prop :=
  ∀ (s : State) (x : Nibble) (a : Byte),
    decodeWord (0xF#4 ++ x ++ 0x15#8) = some (.ldDtVx x) ∧ decodeWord (0xF#4 ++ x ++ 0x18#8) = some (.ldStVx x) ∧
    (readV s x = .ok a →
      (∃ t, exec (.ldDtVx x) s = .next t ∧ t = { s with dt := a } ∧
        KeepsRegs s t (fun _ => False) ∧ KeepsBytes s t (fun _ => False) ∧
        (timerStep s.st t).dt.toNat = a.toNat - 1) ∧
      (∃ t, exec (.ldStVx x) s = .next t ∧ t = { s with st := a } ∧
        KeepsRegs s t (fun _ => False) ∧ KeepsBytes s t (fun _ => False) ∧
        (timerStep s.st t).st.toNat = a.toNat - 1 ∧
        ((timerStep s.st t).playTone = true ↔ s.st = 0 ∧ a ≠ 0) ∧
        ((timerStep s.st t).stopTone = true ↔ (s.st ≠ 0 ∨ a ≠ 0) ∧ a.toNat ≤ 1)))

/-- R276: the lowest key that is down is captured at once; with no key down the core waits. -/
def Obligations.WaitForKeyCapturesOrWaits : Prop :=
  ∀ (s : State) (x : Nibble), decodeWord (0xF#4 ++ x ++ 0x0A#8) = some (.ldVxK x) ∧
    (∀ k < 16, s.key.getLsbD k = true → (∀ j < k, s.key.getLsbD j = false) →
      ∃ t, exec (.ldVxK x) s = .next t ∧ WritesReg s t x k) ∧
    (s.key = 0 →
      ∃ t, exec (.ldVxK x) s = .next t ∧ t = { s with waitK := true, waitX := x } ∧
        KeepsRegs s t (fun _ => False) ∧ KeepsBytes s t (fun _ => False))

/-- R277: a pulse while AwaitingKey: the capture, if a key is down, and the timer step; no fetch, and `pc` unchanged. A break
suspends the waiting core, and the wait goes on after the resume. -/
def Obligations.WaitingTickCapturesLowestKey : Prop :=
  ∀ (s : State) (keys : BitVec 16) (rnd : Byte) (clr : Bool), runState s = .awaitingKey →
    (nextEvent s = .pulse keys rnd false clr →
      ∃ u, step s = .next (renderThenClear clr (timerStep s.st u)) ∧
        (keys = 0 → u = { afterEvent s with key := keys }) ∧
        (∀ k < 16, keys.getLsbD k = true → (∀ j < k, keys.getLsbD j = false) →
          u.waitK = false ∧ WritesReg { afterEvent s with key := keys, waitK := false } u s.waitX k)) ∧
    (nextEvent s = .pulse keys rnd true clr →
      ∃ t, step s = .next t ∧ runState t = .suspended ∧ t.waitK = true ∧ runState (resume t) = .awaitingKey)

/-! ### Display (spec/45_display.md) -/

/-- R300. -/
def Obligations.ClearScreenZeroesAllCells : Prop :=
  ∀ (s : State) (h : Nibble), decodeWord (0x0#4 ++ h ++ 0xE0#8) = some (.cls h) ∧
    ∃ t, exec (.cls h) s = .next t ∧ (∀ r c, fbCell t.fb r c = false) ∧ t.dirty = true ∧
      t = { s with fb := t.fb, dirty := t.dirty } ∧
      KeepsRegs s t (fun _ => False) ∧ KeepsBytes s t (fun _ => False)

/-- R301 to R305: a draw inverts exactly the cells of the grid under a set sprite bit; VF says whether one of them was set;
DIRTY is set if there is one. That a sprite without rows needs no readable I is the model's choice (log 13), from R303 and
R39. -/
def Obligations.DrawInvertsCoveredCells : Prop :=
  ∀ (s : State) (x y n : Nibble) (x0 y0 : Byte) (i : Addr) (bytes : Nat → Byte),
    decodeWord (0xD#4 ++ x ++ y ++ n) = some (.drw x y n) ∧
    (readV s x = .ok x0 → readV s y = .ok y0 → (n ≠ 0 → readI s = .ok i) →
      (∀ k < n.toNat, readMem s (ea i k) = .ok (bytes k)) →
      ∃ t, exec (.drw x y n) s = .next t ∧
        (∀ r c, SpriteCovers bytes x0.toNat y0.toNat n.toNat r c → fbCell t.fb r c = !fbCell s.fb r c) ∧
        (∀ r c, ¬ SpriteCovers bytes x0.toNat y0.toNat n.toNat r c → fbCell t.fb r c = fbCell s.fb r c) ∧
        ((∃ r c, SpriteCovers bytes x0.toNat y0.toNat n.toNat r c ∧ fbCell s.fb r c = true) → vAt t 0xF = 1) ∧
        (¬ (∃ r c, SpriteCovers bytes x0.toNat y0.toNat n.toNat r c ∧ fbCell s.fb r c = true) → vAt t 0xF = 0) ∧
        vIsWritten t 0xF = true ∧
        (t.dirty = true ↔ s.dirty = true ∨ ∃ r c, SpriteCovers bytes x0.toNat y0.toNat n.toNat r c) ∧
        t = { s with v := t.v, vWritten := t.vWritten, fb := t.fb, dirty := t.dirty } ∧
        KeepsRegs s t (fun r => r = 0xF) ∧ KeepsBytes s t (fun _ => False))

/-- The document's property (95_test_vectors.md L1.5), for every sprite and every framebuffer: drawing twice at the same
place restores the framebuffer, and the second draw's VF says whether the first set a cell. -/
def Obligations.DrawingTwiceRestoresTheFramebuffer : Prop :=
  ∀ (s t u : State) (x y n : Nibble), x ≠ 0xF → y ≠ 0xF → exec (.drw x y n) s = .next t →
    exec (.drw x y n) t = .next u →
    u.fb = s.fb ∧ (vAt u 0xF = 1 ↔ ∃ r c, fbCell t.fb r c = true ∧ fbCell s.fb r c = false)

/-! ### The tick (spec/40_cycle_driver.md) -/

/-- R122, R123: when the bytes at `pc` decode to an instruction, a pulse while Running (without a break) is the instruction's
execution on the state after the fetch, then the timer step, unless the instruction's fault has halted the core, and then
the Display Adapter's render and clear. -/
def Obligations.StepRunsTheDecodedInstruction : Prop :=
  ∀ (s : State) (keys : BitVec 16) (rnd : Byte) (clr : Bool) (hi lo : Byte) (i : Instr),
    nextEvent s = .pulse keys rnd false clr → runState s = .running → FetchInBounds s →
    readMem s s.pc = .ok hi → readMem s (s.pc + 1) = .ok lo → decodeBytes [hi, lo] = .ok (i, []) →
    step s = match exec i (atExecute s keys rnd (hi ++ lo)) with
      | .next t => .next (renderThenClear clr (if t.halt then t else timerStep s.st t))
      | .fault f => .fault f
      | .refused r => .refused r

/-- R129: with TRACE set, the tick of a fetched word presents its address and word, a faulting word included; a waiting
tick presents nothing; without TRACE nothing is presented. -/
def Obligations.TracePresentsTheExecutedWord : Prop :=
  ∀ (s t : State) (keys : BitVec 16) (rnd : Byte) (clr : Bool),
    nextEvent s = .pulse keys rnd false clr → step s = .next t →
    (runState s = .running → FetchInBounds s → s.trace = true →
      ∃ w, fetchWord s = .ok w ∧ t.traceOut = some (s.pc, w)) ∧
    (runState s = .awaitingKey → t.traceOut = none) ∧ (s.trace = false → t.traceOut = none)

/-- R307, R126: the render of a pulse reads DIRTY and then `dirty_clr` clears it and nothing else, after the tick of that
pulse, whatever the tick did; no instruction clears DIRTY, and of all steps only a pulse with `dirty_clr` does. That a core
halted at the pulse ignores `dirty_clr`, that it acts while Suspended, and that a render is presented in every run state, are
the model's choice (log 10); after a break it is log 11; that the debugger's `step` takes no `dirty_clr` is log 24. -/
def Obligations.DirtyClearedOnlyByTheAdapter : Prop :=
  (∀ (s : State) (clr : Bool), renderThenClear clr s =
    { s with renderDirty := some s.dirty, dirty := if clr then false else s.dirty }) ∧
  (∀ (s t : State) (keys : BitVec 16) (rnd : Byte) (brk clr : Bool), nextEvent s = .pulse keys rnd brk clr →
    step s = .next t →
    (s.halt = false → ∃ u, pulseTick keys rnd brk (afterEvent s) = .next u ∧ t = renderThenClear clr u) ∧
    (s.halt = true → t = { afterEvent s with renderDirty := some s.dirty })) ∧
  (∀ (i : Instr) (s t : State), exec i s = .next t → s.dirty = true → t.dirty = true) ∧
  (∀ s t : State, step s = .next t → s.dirty = true → t.dirty = false →
    ∃ keys rnd brk, nextEvent s = .pulse keys rnd brk true ∧ s.halt = false)

/-- The document's property (95_test_vectors.md L1.3): a CLS pulse whose render is followed by `dirty_clr` leaves an all-zero
framebuffer and a render that read DIRTY = 1, and the render of the next pulse, on an instruction that does not draw, reads
DIRTY = 0. -/
def Obligations.RenderAfterClsSeesDirtyOnce : Prop :=
  ∀ (s : State) (keys : BitVec 16) (rnd : Byte) (w : Word) (h : Nibble),
    nextEvent s = .pulse keys rnd false true → runState s = .running → FetchInBounds s → fetchWord s = .ok w →
    decodeWord w = some (.cls h) →
    ∃ t, step s = .next t ∧ (∀ r c, fbCell t.fb r c = false) ∧ portRender t = some (t.fb, true) ∧ t.dirty = false ∧
      ∀ (u : State) (keys' : BitVec 16) (rnd' : Byte) (clr : Bool) (w' : Word) (i : Instr),
        nextEvent t = .pulse keys' rnd' false clr → FetchInBounds t → fetchWord t = .ok w' → decodeWord w' = some i →
        i.op ∉ [Op.cls, .drw] → step t = .next u → portRender u = some (t.fb, false)

/-! ### Faults and the debugger (spec/60_exceptions.md) -/

/-- R91, R331: an illegal word suspends the core with the latch written; `pc` stays advanced, no instruction runs and no
timer is stepped. The pulse ends with its render, as every pulse does. -/
def Obligations.IllegalWordSuspends : Prop :=
  (∀ w : Word, decodeWord w = none ↔
    ((fieldsOf w).cls = 0x0 ∧ (w &&& 0xF0FF) ∉ class0Table.map Prod.fst) ∨
    ((fieldsOf w).cls = 0x8 ∧ (w &&& 0xF00F) ∉ class8Table.map Prod.fst) ∨
    ((fieldsOf w).cls = 0xE ∧ (w &&& 0xF0FF) ∉ classETable.map Prod.fst) ∨
    ((fieldsOf w).cls = 0xF ∧ (w &&& 0xF0FF) ∉ classFTable.map Prod.fst)) ∧
  ∀ (s : State) (keys : BitVec 16) (rnd : Byte) (clr : Bool) (w : Word),
    nextEvent s = .pulse keys rnd false clr → runState s = .running → FetchInBounds s → fetchWord s = .ok w →
    decodeWord w = none →
    step s = .next (renderThenClear clr { atExecute s keys rnd w with
      cause := .decodeFault, faultOpcode := w, faultPc := s.pc, susp := true })

/-- R332, R333: RET on an empty stack and CALL on a full one, as a whole tick: the latch, HALT, `pc` past the word, and no
timer step. -/
def Obligations.StackFaultsHaltWithoutTimerStep : Prop :=
  ∀ (s : State) (keys : BitVec 16) (rnd : Byte) (clr : Bool) (w : Word),
    nextEvent s = .pulse keys rnd false clr → runState s = .running → FetchInBounds s → fetchWord s = .ok w →
    (∀ h, decodeWord w = some (.ret h) → s.sp = 0 →
      step s = .next (renderThenClear clr { atExecute s keys rnd w with
        cause := .stackUnderflow, faultOpcode := w, faultPc := s.pc, halt := true })) ∧
    (∀ nnn, decodeWord w = some (.call nnn) → s.sp = s.cfg.stackDepth →
      step s = .next (renderThenClear clr { atExecute s keys rnd w with
        cause := .stackOverflow, faultOpcode := w, faultPc := s.pc, halt := true }))

/-- R336: under `PC_OVERFLOW = fault`, the three places that raise OutOfBoundsAccess; the fetch fault leaves `pc` and does
not write FAULT_OPCODE, the other two keep the post-fetch `pc`. Under `wrap` no instruction and no fetch raises it. Of the
trace port at the fetch fault it says nothing. -/
def Obligations.PcPastTheEndFaultsInThreePlaces : Prop :=
  (∀ (s : State) (keys : BitVec 16) (rnd : Byte) (clr : Bool),
    nextEvent s = .pulse keys rnd false clr → runState s = .running → s.cfg.pcOverflow = .fault →
    0xFFE ≤ s.pc.toNat →
    ∃ t, step s = .next (renderThenClear clr t) ∧ t = { afterEvent s with
      key := keys, rnd := rnd, cause := .outOfBoundsAccess, faultPc := s.pc, halt := true, traceOut := t.traceOut }) ∧
  (∀ (s : State) (x y h : Nibble) (kk a b : Byte), s.cfg.pcOverflow = .fault → 0x1000 ≤ s.pc.toNat + 2 →
    readV s x = .ok a → readV s y = .ok b →
    (a = kk → exec (.seVxKk x kk) s = .next (haltedBy .outOfBoundsAccess s)) ∧
    (a ≠ kk → exec (.sneVxKk x kk) s = .next (haltedBy .outOfBoundsAccess s)) ∧
    (a = b → exec (.seVxVy x y h) s = .next (haltedBy .outOfBoundsAccess s)) ∧
    (a ≠ b → exec (.sneVxVy x y h) s = .next (haltedBy .outOfBoundsAccess s)) ∧
    (s.key.getLsbD (a.toNat % 16) = true → exec (.skp x) s = .next (haltedBy .outOfBoundsAccess s)) ∧
    (s.key.getLsbD (a.toNat % 16) = false → exec (.sknp x) s = .next (haltedBy .outOfBoundsAccess s))) ∧
  (∀ (s : State) (nnn : Addr) (b : Byte), s.cfg.pcOverflow = .fault → readV s 0 = .ok b →
    0x1000 ≤ nnn.toNat + b.toNat → exec (.jpV0 nnn) s = .next (haltedBy .outOfBoundsAccess s)) ∧
  (∀ s t : State, s.cfg.pcOverflow = .wrap → step s = .next t → s.cause ≠ .outOfBoundsAccess →
    t.cause ≠ .outOfBoundsAccess)

/-- R344: a break while Running or AwaitingKey runs no tick and writes only CAUSE and SUSP; while Suspended or Halted it has
no effect. -/
def Obligations.BreakSuspendsBeforeTheTick : Prop :=
  ∀ (s : State) (keys : BitVec 16) (rnd : Byte), nextEvent s = .pulse keys rnd true false →
    (runState s = .running ∨ runState s = .awaitingKey →
      ∃ t, step s = .next t ∧ t = { afterEvent s with cause := .break, susp := true, renderDirty := t.renderDirty }) ∧
    (runState s = .suspended ∨ runState s = .halted →
      ∃ t, step s = .next t ∧ t = { afterEvent s with renderDirty := t.renderDirty })

/-- R345: `resume` while Suspended clears SUSP alone and returns to the underlying state, whose tick the next pulse without a
break runs; while Halted it has no effect. -/
def Obligations.ResumeReturnsToTheUnderlyingState : Prop :=
  ∀ s : State, nextEvent s = .resume →
    (runState s = .suspended → ∃ t, step s = .next t ∧ t = { afterEvent s with susp := false } ∧
      runState t = (if s.waitK then .awaitingKey else .running) ∧
      ∀ keys rnd clr, nextEvent t = .pulse keys rnd false clr →
        step t = renderAfter clr (underlyingTick keys rnd (afterEvent t))) ∧
    (runState s = .halted → step s = .next (afterEvent s))

/-- R346: `step` while Suspended runs exactly one tick of the underlying state and leaves the core Suspended, or Halted by a
fatal fault; while Halted it has no effect. That no render and no `dirty_clr` follow the tick is the model's choice (log 24). -/
def Obligations.SingleStepRunsOneTick : Prop :=
  ∀ (s : State) (keys : BitVec 16) (rnd : Byte), nextEvent s = .singleStep keys rnd →
    (runState s = .suspended → step s = underlyingTick keys rnd (afterEvent s)) ∧
    (runState s = .suspended → s.waitK = false → FetchInBounds s → ∀ w i, fetchWord s = .ok w →
      decodeWord w = some i → ∀ t, exec i (atExecute s keys rnd w) = .next t →
      step s = .next (if t.halt then t else timerStep s.st t)) ∧
    (runState s = .suspended → s.waitK = true → keys = 0 →
      step s = .next (timerStep s.st { afterEvent s with key := keys })) ∧
    (runState s = .suspended → s.waitK = true → ∀ k < 16, keys.getLsbD k = true →
      (∀ j < k, keys.getLsbD j = false) →
      ∃ u, step s = .next (timerStep s.st u) ∧ u.waitK = false ∧
        WritesReg { afterEvent s with key := keys, waitK := false } u s.waitX k) ∧
    (runState s = .suspended → ∀ t, step s = .next t → t.susp = true) ∧
    (runState s = .halted → step s = .next (afterEvent s))

/-- R349: no event changes any state of a halted core: not a pulse, a break, a `resume`, a `step` or another command. What a
render presents is an output, of which this says nothing. -/
def Obligations.HaltedIsTerminal : Prop :=
  ∀ s : State, runState s = .halted → ∃ t, step s = .next t ∧ t = { afterEvent s with renderDirty := t.renderDirty }

/-- R340 on pulses: a pulse changes nothing of a suspended core but DIRTY, and that only by `dirty_clr` after the render,
which is the model's choice (log 10). -/
def Obligations.SuspendedRunsNoTick : Prop :=
  ∀ (s : State) (keys : BitVec 16) (rnd : Byte) (brk clr : Bool), nextEvent s = .pulse keys rnd brk clr →
    runState s = .suspended → step s = .next { afterEvent s with renderDirty := some s.dirty, dirty := s.dirty && !clr }

/-- R37, R126, R352: while Suspended `enable-trace` sets TRACE alone; `memdump` and `print-registers` change nothing, in any
run state. That `resume`, `step` and `enable-trace` have no effect outside Suspended is the model's choice (log 12), from
R126. -/
def Obligations.DebuggerCommandsActOnlyWhileSuspended : Prop :=
  ∀ s : State,
    (nextEvent s = .enableTrace → runState s = .suspended → step s = .next { afterEvent s with trace := true }) ∧
    (nextEvent s = .memdump ∨ nextEvent s = .printRegisters → step s = .next (afterEvent s)) ∧
    ((nextEvent s = .resume ∨ nextEvent s = .enableTrace ∨ ∃ keys rnd, nextEvent s = .singleStep keys rnd) →
      runState s ≠ .suspended → step s = .next (afterEvent s))

/-! ### Reset and launch (spec/10_state.md R40, spec/70_reset_and_hazards.md) -/

/-- The values R40 gives the reset state, and the model's choices where it gives none: V, I and their written bits (log 2),
and a pulse as the first step's event (log 4). -/
def Obligations.ResetLeavesTheStatedValues : Prop :=
  State.reset.pc = 0x200 ∧ State.reset.sp = 0 ∧ State.reset.dt = 0 ∧ State.reset.st = 0 ∧
  (∀ r c, fbCell State.reset.fb r c = false) ∧ State.reset.dirty = false ∧ runState State.reset = .running ∧
  State.reset.waitK = false ∧ State.reset.waitX = 0 ∧ State.reset.cause = .none ∧ State.reset.faultOpcode = 0 ∧
  State.reset.faultPc = 0 ∧ State.reset.trace = false ∧ State.reset.cfg = defaultConfig ∧
  nextEvent State.reset = .pulse (Config.freeKeys 0) (Config.freeRnd 0) false (Config.freeDirtyClr 0) ∧
  (∀ a : Addr, byteAt State.reset a = if h : a.toNat < 80 then some (defaultFont[a.toNat]'h) else none) ∧
  (∀ x, readV State.reset x = .ok 0) ∧ readI State.reset = .ok 0

/-- R370, R371: a ROM of at most 0xE00 bytes is in memory verbatim from 0x200, over the font and otherwise unwritten bytes;
a larger one is not loaded, the core is Halted with ROMTooLarge, and no tick ever runs (what a render presents is an output,
of which this says nothing); the first step after an empty ROM. -/
def Obligations.LaunchLoadsTheRom : Prop :=
  ∀ (cfg : Config) (rom : List Byte),
    (rom.length ≤ 0xE00 →
      launch cfg rom = { resetWith cfg with mem := (launch cfg rom).mem } ∧
      runState (launch cfg rom) = .running ∧ (launch cfg rom).pc = 0x200 ∧
      ∀ a : Addr, byteAt (launch cfg rom) a =
        if 0x200 ≤ a.toNat ∧ a.toNat < 0x200 + rom.length then rom[a.toNat - 0x200]?
        else if h : a.toNat < 80 then some (cfg.font[a.toNat]'h) else none) ∧
    (0xE00 < rom.length →
      launch cfg rom = { resetWith cfg with cause := .romTooLarge, halt := true } ∧
      (∀ a : Addr, 80 ≤ a.toNat → byteAt (launch cfg rom) a = none) ∧
      ∀ s : State,
        s = { launch cfg rom with events := s.events, eventNo := s.eventNo, renderDirty := s.renderDirty } →
        ∃ t, step s = .next t ∧
          t = { launch cfg rom with events := t.events, eventNo := t.eventNo, renderDirty := t.renderDirty }) ∧
    (rom = [] → (cfg.unwritten = .fault →
        step (launch cfg rom) = .fault (.unwrittenRead (.mem 0x200))) ∧
      (cfg.unwritten = .zero → ∃ t, step (launch cfg rom) = .next t ∧ t.cause = .decodeFault ∧ t.susp = true ∧
        t.pc = 0x202))

/-! ### Whole-machine rules -/

/-- The reset state meets every invariant stated of the steps. -/
def Obligations.ResetMeetsTheInvariants : Prop :=
  State.reset.Inv ∧ State.reset.CauseInv ∧ State.reset.RegsReadable ∧
  ∀ cfg rom, (launch cfg rom).Inv ∧ (launch cfg rom).CauseInv ∧ (launch cfg rom).RegsReadable

/-- Every step keeps memory canonical, STACK at its capacity and SP within it, and no step changes a parameter. -/
def Obligations.StepKeepsMemoryAndStackInvariant : Prop :=
  ∀ s t : State, s.Inv → step s = .next t → t.Inv ∧ t.cfg = s.cfg

/-- Every step keeps the latch in agreement with the run state: only a fatal cause halts, and only a recoverable one
suspends. -/
def Obligations.StepKeepsCauseInvariant : Prop := ∀ s t : State, s.CauseInv → step s = .next t → t.CauseInv

/-- The model's choice of log 2 seen along every run: registers that can be read stay readable, and in such a state only an
unwritten byte of memory can end the run. -/
def Obligations.RegisterReadsNeverEndARun : Prop :=
  ∀ s : State, s.RegsReadable →
    (∀ t, step s = .next t → t.RegsReadable) ∧ (∀ x, ∃ a, readV s x = .ok a) ∧ (∃ i, readI s = .ok i) ∧
    (∀ f, step s = .fault f → ∃ a, f = .unwrittenRead (.mem a) ∧ s.cfg.unwritten = .fault) ∧
    (∀ f, step s ≠ .refused f)

/-- R337 in the model: where every cell can be read, every instruction and every step is total. -/
def Obligations.EveryInstructionIsTotal : Prop :=
  ∀ s : State, s.AllReadable → (∀ i, ∃ t, exec i s = .next t) ∧ s.Continues

/-- The writers of memory, of the stack and of I, over all instructions: only LD B and LD [I] write memory (R65), only CALL
and RET touch the stack (R27), and only LD I, ADD I, LD F and the two block operations write I (R24). -/
def Obligations.OnlyNamedInstructionsWriteMemoryStackAndIndex : Prop :=
  ∀ (i : Instr) (s t : State), exec i s = .next t →
    (i.op ∉ [Op.ldBVx, .ldMemVx] → t.mem = s.mem ∧ KeepsBytes s t (fun _ => False)) ∧
    (i.op ∉ [Op.call, .ret] → t.stack = s.stack ∧ t.sp = s.sp) ∧
    (i.op ∉ [Op.ldI, .addIVx, .ldFVx, .ldMemVx, .ldVxMem] → t.i = s.i ∧ t.iWritten = s.iWritten)

/-- The writers of the framebuffer, the timers and the key wait, over all instructions: only CLS and DRW write FB and DIRTY
(R31, R32), only LD DT writes DT (R29), only LD ST writes ST (R30), and only LD Vx,K writes WAITK and WAIT_X (R38). -/
def Obligations.OnlyNamedInstructionsWriteDisplayAndTimers : Prop :=
  ∀ (i : Instr) (s t : State), exec i s = .next t →
    (i.op ∉ [Op.cls, .drw] → t.fb = s.fb ∧ t.dirty = s.dirty) ∧ (i.op ≠ .ldDtVx → t.dt = s.dt) ∧
    (i.op ≠ .ldStVx → t.st = s.st) ∧ (i.op ≠ .ldVxK → t.waitK = s.waitK ∧ t.waitX = s.waitX)

/-- The writers of the registers, of `pc` and of the fault state, over all instructions: an instruction outside the list of
R21 and R22 writes no register, one outside the control flow family leaves `pc` where the fetch put it, and one without a
fault of R330 writes no fault state; none writes SUSP, TRACE, the inputs or the parameters (R342). -/
def Obligations.OnlyNamedInstructionsWriteRegistersAndControl : Prop :=
  ∀ (i : Instr) (s t : State), exec i s = .next t →
    (i.op ∉ [Op.ldVxKk, .addVxKk, .ldVxVy, .orVxVy, .andVxVy, .xorVxVy, .addVxVy, .subVxVy, .shrVxVy, .subnVxVy, .shlVxVy,
              .rndVxKk, .ldVxDt, .ldVxK, .ldVxMem, .drw] → KeepsRegs s t (fun _ => False)) ∧
    (i.op ∉ [Op.ret, .jp, .call, .jpV0, .seVxKk, .sneVxKk, .seVxVy, .sneVxVy, .skp, .sknp] → t.pc = s.pc) ∧
    (i.op ∉ [Op.ret, .call, .jpV0, .seVxKk, .sneVxKk, .seVxVy, .sneVxVy, .skp, .sknp] →
      t.cause = s.cause ∧ t.faultOpcode = s.faultOpcode ∧ t.faultPc = s.faultPc ∧ t.halt = s.halt) ∧
    t.susp = s.susp ∧ t.trace = s.trace ∧ t.key = s.key ∧ t.rnd = s.rnd ∧ t.cfg = s.cfg

/-- R339 over all instructions: an instruction that halts the core has made no write of its own. -/
def Obligations.FaultEntryIsPrecise : Prop :=
  ∀ (i : Instr) (s t : State), s.halt = false → exec i s = .next t → t.halt = true →
    ∃ c, c.fatal = true ∧ t = haltedBy c s ∧ KeepsRegs s t (fun _ => False) ∧ KeepsBytes s t (fun _ => False)
end

