-- ==== Sys2Proof/Laws/State.lean ====
section
/-! SUPPORT. One lemma per field per update of the state, true by unfolding it once. -/

namespace Sys2Proof.Machine

variable (s : State)

/-! ### Writing a register -/

@[simp] theorem setV_v (x : Nibble) (b : Byte) : (setV s x b).v = s.v.set x.toNat b x.isLt := rfl
@[simp] theorem setV_vWritten (x : Nibble) (b : Byte) : (setV s x b).vWritten = s.vWritten ||| BitVec.twoPow 16 x.toNat := rfl
@[simp] theorem setV_i (x : Nibble) (b : Byte) : (setV s x b).i = s.i := rfl
@[simp] theorem setV_iWritten (x : Nibble) (b : Byte) : (setV s x b).iWritten = s.iWritten := rfl
@[simp] theorem setV_pc (x : Nibble) (b : Byte) : (setV s x b).pc = s.pc := rfl
@[simp] theorem setV_stack (x : Nibble) (b : Byte) : (setV s x b).stack = s.stack := rfl
@[simp] theorem setV_sp (x : Nibble) (b : Byte) : (setV s x b).sp = s.sp := rfl
@[simp] theorem setV_dt (x : Nibble) (b : Byte) : (setV s x b).dt = s.dt := rfl
@[simp] theorem setV_st (x : Nibble) (b : Byte) : (setV s x b).st = s.st := rfl
@[simp] theorem setV_mem (x : Nibble) (b : Byte) : (setV s x b).mem = s.mem := rfl
@[simp] theorem setV_fb (x : Nibble) (b : Byte) : (setV s x b).fb = s.fb := rfl
@[simp] theorem setV_dirty (x : Nibble) (b : Byte) : (setV s x b).dirty = s.dirty := rfl
@[simp] theorem setV_halt (x : Nibble) (b : Byte) : (setV s x b).halt = s.halt := rfl
@[simp] theorem setV_susp (x : Nibble) (b : Byte) : (setV s x b).susp = s.susp := rfl
@[simp] theorem setV_waitK (x : Nibble) (b : Byte) : (setV s x b).waitK = s.waitK := rfl
@[simp] theorem setV_waitX (x : Nibble) (b : Byte) : (setV s x b).waitX = s.waitX := rfl
@[simp] theorem setV_cause (x : Nibble) (b : Byte) : (setV s x b).cause = s.cause := rfl
@[simp] theorem setV_faultOpcode (x : Nibble) (b : Byte) : (setV s x b).faultOpcode = s.faultOpcode := rfl
@[simp] theorem setV_faultPc (x : Nibble) (b : Byte) : (setV s x b).faultPc = s.faultPc := rfl
@[simp] theorem setV_trace (x : Nibble) (b : Byte) : (setV s x b).trace = s.trace := rfl
@[simp] theorem setV_key (x : Nibble) (b : Byte) : (setV s x b).key = s.key := rfl
@[simp] theorem setV_rnd (x : Nibble) (b : Byte) : (setV s x b).rnd = s.rnd := rfl
@[simp] theorem setV_playTone (x : Nibble) (b : Byte) : (setV s x b).playTone = s.playTone := rfl
@[simp] theorem setV_stopTone (x : Nibble) (b : Byte) : (setV s x b).stopTone = s.stopTone := rfl
@[simp] theorem setV_traceOut (x : Nibble) (b : Byte) : (setV s x b).traceOut = s.traceOut := rfl
@[simp] theorem setV_renderDirty (x : Nibble) (b : Byte) : (setV s x b).renderDirty = s.renderDirty := rfl
@[simp] theorem setV_curWord (x : Nibble) (b : Byte) : (setV s x b).curWord = s.curWord := rfl
@[simp] theorem setV_curPc (x : Nibble) (b : Byte) : (setV s x b).curPc = s.curPc := rfl
@[simp] theorem setV_cfg (x : Nibble) (b : Byte) : (setV s x b).cfg = s.cfg := rfl
@[simp] theorem setV_events (x : Nibble) (b : Byte) : (setV s x b).events = s.events := rfl
@[simp] theorem setV_eventNo (x : Nibble) (b : Byte) : (setV s x b).eventNo = s.eventNo := rfl

/-! ### Writing I -/

@[simp] theorem setI_v (a : Addr) : (setI s a).v = s.v := rfl
@[simp] theorem setI_vWritten (a : Addr) : (setI s a).vWritten = s.vWritten := rfl
@[simp] theorem setI_i (a : Addr) : (setI s a).i = a := rfl
@[simp] theorem setI_iWritten (a : Addr) : (setI s a).iWritten = true := rfl
@[simp] theorem setI_pc (a : Addr) : (setI s a).pc = s.pc := rfl
@[simp] theorem setI_stack (a : Addr) : (setI s a).stack = s.stack := rfl
@[simp] theorem setI_sp (a : Addr) : (setI s a).sp = s.sp := rfl
@[simp] theorem setI_dt (a : Addr) : (setI s a).dt = s.dt := rfl
@[simp] theorem setI_st (a : Addr) : (setI s a).st = s.st := rfl
@[simp] theorem setI_mem (a : Addr) : (setI s a).mem = s.mem := rfl
@[simp] theorem setI_fb (a : Addr) : (setI s a).fb = s.fb := rfl
@[simp] theorem setI_dirty (a : Addr) : (setI s a).dirty = s.dirty := rfl
@[simp] theorem setI_halt (a : Addr) : (setI s a).halt = s.halt := rfl
@[simp] theorem setI_susp (a : Addr) : (setI s a).susp = s.susp := rfl
@[simp] theorem setI_waitK (a : Addr) : (setI s a).waitK = s.waitK := rfl
@[simp] theorem setI_waitX (a : Addr) : (setI s a).waitX = s.waitX := rfl
@[simp] theorem setI_cause (a : Addr) : (setI s a).cause = s.cause := rfl
@[simp] theorem setI_faultOpcode (a : Addr) : (setI s a).faultOpcode = s.faultOpcode := rfl
@[simp] theorem setI_faultPc (a : Addr) : (setI s a).faultPc = s.faultPc := rfl
@[simp] theorem setI_trace (a : Addr) : (setI s a).trace = s.trace := rfl
@[simp] theorem setI_key (a : Addr) : (setI s a).key = s.key := rfl
@[simp] theorem setI_rnd (a : Addr) : (setI s a).rnd = s.rnd := rfl
@[simp] theorem setI_playTone (a : Addr) : (setI s a).playTone = s.playTone := rfl
@[simp] theorem setI_stopTone (a : Addr) : (setI s a).stopTone = s.stopTone := rfl
@[simp] theorem setI_traceOut (a : Addr) : (setI s a).traceOut = s.traceOut := rfl
@[simp] theorem setI_renderDirty (a : Addr) : (setI s a).renderDirty = s.renderDirty := rfl
@[simp] theorem setI_curWord (a : Addr) : (setI s a).curWord = s.curWord := rfl
@[simp] theorem setI_curPc (a : Addr) : (setI s a).curPc = s.curPc := rfl
@[simp] theorem setI_cfg (a : Addr) : (setI s a).cfg = s.cfg := rfl
@[simp] theorem setI_events (a : Addr) : (setI s a).events = s.events := rfl
@[simp] theorem setI_eventNo (a : Addr) : (setI s a).eventNo = s.eventNo := rfl

/-! ### Writing `pc` -/

@[simp] theorem setPc_v (a : Addr) : (setPc s a).v = s.v := rfl
@[simp] theorem setPc_vWritten (a : Addr) : (setPc s a).vWritten = s.vWritten := rfl
@[simp] theorem setPc_i (a : Addr) : (setPc s a).i = s.i := rfl
@[simp] theorem setPc_iWritten (a : Addr) : (setPc s a).iWritten = s.iWritten := rfl
@[simp] theorem setPc_pc (a : Addr) : (setPc s a).pc = a := rfl
@[simp] theorem setPc_stack (a : Addr) : (setPc s a).stack = s.stack := rfl
@[simp] theorem setPc_sp (a : Addr) : (setPc s a).sp = s.sp := rfl
@[simp] theorem setPc_dt (a : Addr) : (setPc s a).dt = s.dt := rfl
@[simp] theorem setPc_st (a : Addr) : (setPc s a).st = s.st := rfl
@[simp] theorem setPc_mem (a : Addr) : (setPc s a).mem = s.mem := rfl
@[simp] theorem setPc_fb (a : Addr) : (setPc s a).fb = s.fb := rfl
@[simp] theorem setPc_dirty (a : Addr) : (setPc s a).dirty = s.dirty := rfl
@[simp] theorem setPc_halt (a : Addr) : (setPc s a).halt = s.halt := rfl
@[simp] theorem setPc_susp (a : Addr) : (setPc s a).susp = s.susp := rfl
@[simp] theorem setPc_waitK (a : Addr) : (setPc s a).waitK = s.waitK := rfl
@[simp] theorem setPc_waitX (a : Addr) : (setPc s a).waitX = s.waitX := rfl
@[simp] theorem setPc_cause (a : Addr) : (setPc s a).cause = s.cause := rfl
@[simp] theorem setPc_faultOpcode (a : Addr) : (setPc s a).faultOpcode = s.faultOpcode := rfl
@[simp] theorem setPc_faultPc (a : Addr) : (setPc s a).faultPc = s.faultPc := rfl
@[simp] theorem setPc_trace (a : Addr) : (setPc s a).trace = s.trace := rfl
@[simp] theorem setPc_key (a : Addr) : (setPc s a).key = s.key := rfl
@[simp] theorem setPc_rnd (a : Addr) : (setPc s a).rnd = s.rnd := rfl
@[simp] theorem setPc_playTone (a : Addr) : (setPc s a).playTone = s.playTone := rfl
@[simp] theorem setPc_stopTone (a : Addr) : (setPc s a).stopTone = s.stopTone := rfl
@[simp] theorem setPc_traceOut (a : Addr) : (setPc s a).traceOut = s.traceOut := rfl
@[simp] theorem setPc_renderDirty (a : Addr) : (setPc s a).renderDirty = s.renderDirty := rfl
@[simp] theorem setPc_curWord (a : Addr) : (setPc s a).curWord = s.curWord := rfl
@[simp] theorem setPc_curPc (a : Addr) : (setPc s a).curPc = s.curPc := rfl
@[simp] theorem setPc_cfg (a : Addr) : (setPc s a).cfg = s.cfg := rfl
@[simp] theorem setPc_events (a : Addr) : (setPc s a).events = s.events := rfl
@[simp] theorem setPc_eventNo (a : Addr) : (setPc s a).eventNo = s.eventNo := rfl

/-! ### Writing a byte of memory -/

@[simp] theorem storeByte_v (a : Addr) (b : Byte) : (storeByte s a b).v = s.v := rfl
@[simp] theorem storeByte_vWritten (a : Addr) (b : Byte) : (storeByte s a b).vWritten = s.vWritten := rfl
@[simp] theorem storeByte_i (a : Addr) (b : Byte) : (storeByte s a b).i = s.i := rfl
@[simp] theorem storeByte_iWritten (a : Addr) (b : Byte) : (storeByte s a b).iWritten = s.iWritten := rfl
@[simp] theorem storeByte_pc (a : Addr) (b : Byte) : (storeByte s a b).pc = s.pc := rfl
@[simp] theorem storeByte_stack (a : Addr) (b : Byte) : (storeByte s a b).stack = s.stack := rfl
@[simp] theorem storeByte_sp (a : Addr) (b : Byte) : (storeByte s a b).sp = s.sp := rfl
@[simp] theorem storeByte_dt (a : Addr) (b : Byte) : (storeByte s a b).dt = s.dt := rfl
@[simp] theorem storeByte_st (a : Addr) (b : Byte) : (storeByte s a b).st = s.st := rfl
@[simp] theorem storeByte_mem (a : Addr) (b : Byte) : (storeByte s a b).mem = Memory.write s.cfg.font s.mem a b := rfl
@[simp] theorem storeByte_fb (a : Addr) (b : Byte) : (storeByte s a b).fb = s.fb := rfl
@[simp] theorem storeByte_dirty (a : Addr) (b : Byte) : (storeByte s a b).dirty = s.dirty := rfl
@[simp] theorem storeByte_halt (a : Addr) (b : Byte) : (storeByte s a b).halt = s.halt := rfl
@[simp] theorem storeByte_susp (a : Addr) (b : Byte) : (storeByte s a b).susp = s.susp := rfl
@[simp] theorem storeByte_waitK (a : Addr) (b : Byte) : (storeByte s a b).waitK = s.waitK := rfl
@[simp] theorem storeByte_waitX (a : Addr) (b : Byte) : (storeByte s a b).waitX = s.waitX := rfl
@[simp] theorem storeByte_cause (a : Addr) (b : Byte) : (storeByte s a b).cause = s.cause := rfl
@[simp] theorem storeByte_faultOpcode (a : Addr) (b : Byte) : (storeByte s a b).faultOpcode = s.faultOpcode := rfl
@[simp] theorem storeByte_faultPc (a : Addr) (b : Byte) : (storeByte s a b).faultPc = s.faultPc := rfl
@[simp] theorem storeByte_trace (a : Addr) (b : Byte) : (storeByte s a b).trace = s.trace := rfl
@[simp] theorem storeByte_key (a : Addr) (b : Byte) : (storeByte s a b).key = s.key := rfl
@[simp] theorem storeByte_rnd (a : Addr) (b : Byte) : (storeByte s a b).rnd = s.rnd := rfl
@[simp] theorem storeByte_playTone (a : Addr) (b : Byte) : (storeByte s a b).playTone = s.playTone := rfl
@[simp] theorem storeByte_stopTone (a : Addr) (b : Byte) : (storeByte s a b).stopTone = s.stopTone := rfl
@[simp] theorem storeByte_traceOut (a : Addr) (b : Byte) : (storeByte s a b).traceOut = s.traceOut := rfl
@[simp] theorem storeByte_renderDirty (a : Addr) (b : Byte) : (storeByte s a b).renderDirty = s.renderDirty := rfl
@[simp] theorem storeByte_curWord (a : Addr) (b : Byte) : (storeByte s a b).curWord = s.curWord := rfl
@[simp] theorem storeByte_curPc (a : Addr) (b : Byte) : (storeByte s a b).curPc = s.curPc := rfl
@[simp] theorem storeByte_cfg (a : Addr) (b : Byte) : (storeByte s a b).cfg = s.cfg := rfl
@[simp] theorem storeByte_events (a : Addr) (b : Byte) : (storeByte s a b).events = s.events := rfl
@[simp] theorem storeByte_eventNo (a : Addr) (b : Byte) : (storeByte s a b).eventNo = s.eventNo := rfl

/-! ### Fault entry -/

@[simp] theorem enterFault_v (c : Cause) (w : Option Word) (a : Option Addr) : (enterFault c w a s).v = s.v := rfl
@[simp] theorem enterFault_vWritten (c : Cause) (w : Option Word) (a : Option Addr) : (enterFault c w a s).vWritten = s.vWritten := rfl
@[simp] theorem enterFault_i (c : Cause) (w : Option Word) (a : Option Addr) : (enterFault c w a s).i = s.i := rfl
@[simp] theorem enterFault_iWritten (c : Cause) (w : Option Word) (a : Option Addr) : (enterFault c w a s).iWritten = s.iWritten := rfl
@[simp] theorem enterFault_pc (c : Cause) (w : Option Word) (a : Option Addr) : (enterFault c w a s).pc = s.pc := rfl
@[simp] theorem enterFault_stack (c : Cause) (w : Option Word) (a : Option Addr) : (enterFault c w a s).stack = s.stack := rfl
@[simp] theorem enterFault_sp (c : Cause) (w : Option Word) (a : Option Addr) : (enterFault c w a s).sp = s.sp := rfl
@[simp] theorem enterFault_dt (c : Cause) (w : Option Word) (a : Option Addr) : (enterFault c w a s).dt = s.dt := rfl
@[simp] theorem enterFault_st (c : Cause) (w : Option Word) (a : Option Addr) : (enterFault c w a s).st = s.st := rfl
@[simp] theorem enterFault_mem (c : Cause) (w : Option Word) (a : Option Addr) : (enterFault c w a s).mem = s.mem := rfl
@[simp] theorem enterFault_fb (c : Cause) (w : Option Word) (a : Option Addr) : (enterFault c w a s).fb = s.fb := rfl
@[simp] theorem enterFault_dirty (c : Cause) (w : Option Word) (a : Option Addr) : (enterFault c w a s).dirty = s.dirty := rfl
@[simp] theorem enterFault_halt (c : Cause) (w : Option Word) (a : Option Addr) : (enterFault c w a s).halt = (s.halt || c.fatal) := rfl
@[simp] theorem enterFault_susp (c : Cause) (w : Option Word) (a : Option Addr) : (enterFault c w a s).susp = (s.susp || c.recoverable) := rfl
@[simp] theorem enterFault_waitK (c : Cause) (w : Option Word) (a : Option Addr) : (enterFault c w a s).waitK = s.waitK := rfl
@[simp] theorem enterFault_waitX (c : Cause) (w : Option Word) (a : Option Addr) : (enterFault c w a s).waitX = s.waitX := rfl
@[simp] theorem enterFault_cause (c : Cause) (w : Option Word) (a : Option Addr) : (enterFault c w a s).cause = c := rfl
@[simp] theorem enterFault_faultOpcode (c : Cause) (w : Option Word) (a : Option Addr) : (enterFault c w a s).faultOpcode = w.getD s.faultOpcode := rfl
@[simp] theorem enterFault_faultPc (c : Cause) (w : Option Word) (a : Option Addr) : (enterFault c w a s).faultPc = a.getD s.faultPc := rfl
@[simp] theorem enterFault_trace (c : Cause) (w : Option Word) (a : Option Addr) : (enterFault c w a s).trace = s.trace := rfl
@[simp] theorem enterFault_key (c : Cause) (w : Option Word) (a : Option Addr) : (enterFault c w a s).key = s.key := rfl
@[simp] theorem enterFault_rnd (c : Cause) (w : Option Word) (a : Option Addr) : (enterFault c w a s).rnd = s.rnd := rfl
@[simp] theorem enterFault_playTone (c : Cause) (w : Option Word) (a : Option Addr) : (enterFault c w a s).playTone = s.playTone := rfl
@[simp] theorem enterFault_stopTone (c : Cause) (w : Option Word) (a : Option Addr) : (enterFault c w a s).stopTone = s.stopTone := rfl
@[simp] theorem enterFault_traceOut (c : Cause) (w : Option Word) (a : Option Addr) : (enterFault c w a s).traceOut = s.traceOut := rfl
@[simp] theorem enterFault_renderDirty (c : Cause) (w : Option Word) (a : Option Addr) : (enterFault c w a s).renderDirty = s.renderDirty := rfl
@[simp] theorem enterFault_curWord (c : Cause) (w : Option Word) (a : Option Addr) : (enterFault c w a s).curWord = s.curWord := rfl
@[simp] theorem enterFault_curPc (c : Cause) (w : Option Word) (a : Option Addr) : (enterFault c w a s).curPc = s.curPc := rfl
@[simp] theorem enterFault_cfg (c : Cause) (w : Option Word) (a : Option Addr) : (enterFault c w a s).cfg = s.cfg := rfl
@[simp] theorem enterFault_events (c : Cause) (w : Option Word) (a : Option Addr) : (enterFault c w a s).events = s.events := rfl
@[simp] theorem enterFault_eventNo (c : Cause) (w : Option Word) (a : Option Addr) : (enterFault c w a s).eventNo = s.eventNo := rfl

/-! ### The timer step -/

@[simp] theorem timerStep_v (st0 : Byte) : (timerStep st0 s).v = s.v := rfl
@[simp] theorem timerStep_vWritten (st0 : Byte) : (timerStep st0 s).vWritten = s.vWritten := rfl
@[simp] theorem timerStep_i (st0 : Byte) : (timerStep st0 s).i = s.i := rfl
@[simp] theorem timerStep_iWritten (st0 : Byte) : (timerStep st0 s).iWritten = s.iWritten := rfl
@[simp] theorem timerStep_pc (st0 : Byte) : (timerStep st0 s).pc = s.pc := rfl
@[simp] theorem timerStep_stack (st0 : Byte) : (timerStep st0 s).stack = s.stack := rfl
@[simp] theorem timerStep_sp (st0 : Byte) : (timerStep st0 s).sp = s.sp := rfl
@[simp] theorem timerStep_dt (st0 : Byte) : (timerStep st0 s).dt = countDown s.dt := rfl
@[simp] theorem timerStep_st (st0 : Byte) : (timerStep st0 s).st = countDown s.st := rfl
@[simp] theorem timerStep_mem (st0 : Byte) : (timerStep st0 s).mem = s.mem := rfl
@[simp] theorem timerStep_fb (st0 : Byte) : (timerStep st0 s).fb = s.fb := rfl
@[simp] theorem timerStep_dirty (st0 : Byte) : (timerStep st0 s).dirty = s.dirty := rfl
@[simp] theorem timerStep_halt (st0 : Byte) : (timerStep st0 s).halt = s.halt := rfl
@[simp] theorem timerStep_susp (st0 : Byte) : (timerStep st0 s).susp = s.susp := rfl
@[simp] theorem timerStep_waitK (st0 : Byte) : (timerStep st0 s).waitK = s.waitK := rfl
@[simp] theorem timerStep_waitX (st0 : Byte) : (timerStep st0 s).waitX = s.waitX := rfl
@[simp] theorem timerStep_cause (st0 : Byte) : (timerStep st0 s).cause = s.cause := rfl
@[simp] theorem timerStep_faultOpcode (st0 : Byte) : (timerStep st0 s).faultOpcode = s.faultOpcode := rfl
@[simp] theorem timerStep_faultPc (st0 : Byte) : (timerStep st0 s).faultPc = s.faultPc := rfl
@[simp] theorem timerStep_trace (st0 : Byte) : (timerStep st0 s).trace = s.trace := rfl
@[simp] theorem timerStep_key (st0 : Byte) : (timerStep st0 s).key = s.key := rfl
@[simp] theorem timerStep_rnd (st0 : Byte) : (timerStep st0 s).rnd = s.rnd := rfl
@[simp] theorem timerStep_playTone (st0 : Byte) : (timerStep st0 s).playTone = (st0 == 0 && s.st != 0) := rfl
@[simp] theorem timerStep_stopTone (st0 : Byte) : (timerStep st0 s).stopTone = ((st0 != 0 || s.st != 0) && countDown s.st == 0) := rfl
@[simp] theorem timerStep_traceOut (st0 : Byte) : (timerStep st0 s).traceOut = s.traceOut := rfl
@[simp] theorem timerStep_renderDirty (st0 : Byte) : (timerStep st0 s).renderDirty = s.renderDirty := rfl
@[simp] theorem timerStep_curWord (st0 : Byte) : (timerStep st0 s).curWord = s.curWord := rfl
@[simp] theorem timerStep_curPc (st0 : Byte) : (timerStep st0 s).curPc = s.curPc := rfl
@[simp] theorem timerStep_cfg (st0 : Byte) : (timerStep st0 s).cfg = s.cfg := rfl
@[simp] theorem timerStep_events (st0 : Byte) : (timerStep st0 s).events = s.events := rfl
@[simp] theorem timerStep_eventNo (st0 : Byte) : (timerStep st0 s).eventNo = s.eventNo := rfl

/-! ### The start of a tick -/

@[simp] theorem latchInputs_v (keys : BitVec 16) (rnd : Byte) : (latchInputs keys rnd s).v = s.v := rfl
@[simp] theorem latchInputs_vWritten (keys : BitVec 16) (rnd : Byte) : (latchInputs keys rnd s).vWritten = s.vWritten := rfl
@[simp] theorem latchInputs_i (keys : BitVec 16) (rnd : Byte) : (latchInputs keys rnd s).i = s.i := rfl
@[simp] theorem latchInputs_iWritten (keys : BitVec 16) (rnd : Byte) : (latchInputs keys rnd s).iWritten = s.iWritten := rfl
@[simp] theorem latchInputs_pc (keys : BitVec 16) (rnd : Byte) : (latchInputs keys rnd s).pc = s.pc := rfl
@[simp] theorem latchInputs_stack (keys : BitVec 16) (rnd : Byte) : (latchInputs keys rnd s).stack = s.stack := rfl
@[simp] theorem latchInputs_sp (keys : BitVec 16) (rnd : Byte) : (latchInputs keys rnd s).sp = s.sp := rfl
@[simp] theorem latchInputs_dt (keys : BitVec 16) (rnd : Byte) : (latchInputs keys rnd s).dt = s.dt := rfl
@[simp] theorem latchInputs_st (keys : BitVec 16) (rnd : Byte) : (latchInputs keys rnd s).st = s.st := rfl
@[simp] theorem latchInputs_mem (keys : BitVec 16) (rnd : Byte) : (latchInputs keys rnd s).mem = s.mem := rfl
@[simp] theorem latchInputs_fb (keys : BitVec 16) (rnd : Byte) : (latchInputs keys rnd s).fb = s.fb := rfl
@[simp] theorem latchInputs_dirty (keys : BitVec 16) (rnd : Byte) : (latchInputs keys rnd s).dirty = s.dirty := rfl
@[simp] theorem latchInputs_halt (keys : BitVec 16) (rnd : Byte) : (latchInputs keys rnd s).halt = s.halt := rfl
@[simp] theorem latchInputs_susp (keys : BitVec 16) (rnd : Byte) : (latchInputs keys rnd s).susp = s.susp := rfl
@[simp] theorem latchInputs_waitK (keys : BitVec 16) (rnd : Byte) : (latchInputs keys rnd s).waitK = s.waitK := rfl
@[simp] theorem latchInputs_waitX (keys : BitVec 16) (rnd : Byte) : (latchInputs keys rnd s).waitX = s.waitX := rfl
@[simp] theorem latchInputs_cause (keys : BitVec 16) (rnd : Byte) : (latchInputs keys rnd s).cause = s.cause := rfl
@[simp] theorem latchInputs_faultOpcode (keys : BitVec 16) (rnd : Byte) : (latchInputs keys rnd s).faultOpcode = s.faultOpcode := rfl
@[simp] theorem latchInputs_faultPc (keys : BitVec 16) (rnd : Byte) : (latchInputs keys rnd s).faultPc = s.faultPc := rfl
@[simp] theorem latchInputs_trace (keys : BitVec 16) (rnd : Byte) : (latchInputs keys rnd s).trace = s.trace := rfl
@[simp] theorem latchInputs_key (keys : BitVec 16) (rnd : Byte) : (latchInputs keys rnd s).key = keys := rfl
@[simp] theorem latchInputs_rnd (keys : BitVec 16) (rnd : Byte) : (latchInputs keys rnd s).rnd = rnd := rfl
@[simp] theorem latchInputs_playTone (keys : BitVec 16) (rnd : Byte) : (latchInputs keys rnd s).playTone = s.playTone := rfl
@[simp] theorem latchInputs_stopTone (keys : BitVec 16) (rnd : Byte) : (latchInputs keys rnd s).stopTone = s.stopTone := rfl
@[simp] theorem latchInputs_traceOut (keys : BitVec 16) (rnd : Byte) : (latchInputs keys rnd s).traceOut = s.traceOut := rfl
@[simp] theorem latchInputs_renderDirty (keys : BitVec 16) (rnd : Byte) : (latchInputs keys rnd s).renderDirty = s.renderDirty := rfl
@[simp] theorem latchInputs_curWord (keys : BitVec 16) (rnd : Byte) : (latchInputs keys rnd s).curWord = s.curWord := rfl
@[simp] theorem latchInputs_curPc (keys : BitVec 16) (rnd : Byte) : (latchInputs keys rnd s).curPc = s.curPc := rfl
@[simp] theorem latchInputs_cfg (keys : BitVec 16) (rnd : Byte) : (latchInputs keys rnd s).cfg = s.cfg := rfl
@[simp] theorem latchInputs_events (keys : BitVec 16) (rnd : Byte) : (latchInputs keys rnd s).events = s.events := rfl
@[simp] theorem latchInputs_eventNo (keys : BitVec 16) (rnd : Byte) : (latchInputs keys rnd s).eventNo = s.eventNo := rfl

/-! ### After the fetch -/

@[simp] theorem beginWord_v (w : Word) : (beginWord w s).v = s.v := rfl
@[simp] theorem beginWord_vWritten (w : Word) : (beginWord w s).vWritten = s.vWritten := rfl
@[simp] theorem beginWord_i (w : Word) : (beginWord w s).i = s.i := rfl
@[simp] theorem beginWord_iWritten (w : Word) : (beginWord w s).iWritten = s.iWritten := rfl
@[simp] theorem beginWord_pc (w : Word) : (beginWord w s).pc = s.pc + 2 := rfl
@[simp] theorem beginWord_stack (w : Word) : (beginWord w s).stack = s.stack := rfl
@[simp] theorem beginWord_sp (w : Word) : (beginWord w s).sp = s.sp := rfl
@[simp] theorem beginWord_dt (w : Word) : (beginWord w s).dt = s.dt := rfl
@[simp] theorem beginWord_st (w : Word) : (beginWord w s).st = s.st := rfl
@[simp] theorem beginWord_mem (w : Word) : (beginWord w s).mem = s.mem := rfl
@[simp] theorem beginWord_fb (w : Word) : (beginWord w s).fb = s.fb := rfl
@[simp] theorem beginWord_dirty (w : Word) : (beginWord w s).dirty = s.dirty := rfl
@[simp] theorem beginWord_halt (w : Word) : (beginWord w s).halt = s.halt := rfl
@[simp] theorem beginWord_susp (w : Word) : (beginWord w s).susp = s.susp := rfl
@[simp] theorem beginWord_waitK (w : Word) : (beginWord w s).waitK = s.waitK := rfl
@[simp] theorem beginWord_waitX (w : Word) : (beginWord w s).waitX = s.waitX := rfl
@[simp] theorem beginWord_cause (w : Word) : (beginWord w s).cause = s.cause := rfl
@[simp] theorem beginWord_faultOpcode (w : Word) : (beginWord w s).faultOpcode = s.faultOpcode := rfl
@[simp] theorem beginWord_faultPc (w : Word) : (beginWord w s).faultPc = s.faultPc := rfl
@[simp] theorem beginWord_trace (w : Word) : (beginWord w s).trace = s.trace := rfl
@[simp] theorem beginWord_key (w : Word) : (beginWord w s).key = s.key := rfl
@[simp] theorem beginWord_rnd (w : Word) : (beginWord w s).rnd = s.rnd := rfl
@[simp] theorem beginWord_playTone (w : Word) : (beginWord w s).playTone = s.playTone := rfl
@[simp] theorem beginWord_stopTone (w : Word) : (beginWord w s).stopTone = s.stopTone := rfl
@[simp] theorem beginWord_traceOut (w : Word) : (beginWord w s).traceOut = (if s.trace then some (s.pc, w) else none) := rfl
@[simp] theorem beginWord_renderDirty (w : Word) : (beginWord w s).renderDirty = s.renderDirty := rfl
@[simp] theorem beginWord_curWord (w : Word) : (beginWord w s).curWord = w := rfl
@[simp] theorem beginWord_curPc (w : Word) : (beginWord w s).curPc = s.pc := rfl
@[simp] theorem beginWord_cfg (w : Word) : (beginWord w s).cfg = s.cfg := rfl
@[simp] theorem beginWord_events (w : Word) : (beginWord w s).events = s.events := rfl
@[simp] theorem beginWord_eventNo (w : Word) : (beginWord w s).eventNo = s.eventNo := rfl

/-! ### The start of an event -/

@[simp] theorem beginEvent_v  : (beginEvent s).v = s.v := rfl
@[simp] theorem beginEvent_vWritten  : (beginEvent s).vWritten = s.vWritten := rfl
@[simp] theorem beginEvent_i  : (beginEvent s).i = s.i := rfl
@[simp] theorem beginEvent_iWritten  : (beginEvent s).iWritten = s.iWritten := rfl
@[simp] theorem beginEvent_pc  : (beginEvent s).pc = s.pc := rfl
@[simp] theorem beginEvent_stack  : (beginEvent s).stack = s.stack := rfl
@[simp] theorem beginEvent_sp  : (beginEvent s).sp = s.sp := rfl
@[simp] theorem beginEvent_dt  : (beginEvent s).dt = s.dt := rfl
@[simp] theorem beginEvent_st  : (beginEvent s).st = s.st := rfl
@[simp] theorem beginEvent_mem  : (beginEvent s).mem = s.mem := rfl
@[simp] theorem beginEvent_fb  : (beginEvent s).fb = s.fb := rfl
@[simp] theorem beginEvent_dirty  : (beginEvent s).dirty = s.dirty := rfl
@[simp] theorem beginEvent_halt  : (beginEvent s).halt = s.halt := rfl
@[simp] theorem beginEvent_susp  : (beginEvent s).susp = s.susp := rfl
@[simp] theorem beginEvent_waitK  : (beginEvent s).waitK = s.waitK := rfl
@[simp] theorem beginEvent_waitX  : (beginEvent s).waitX = s.waitX := rfl
@[simp] theorem beginEvent_cause  : (beginEvent s).cause = s.cause := rfl
@[simp] theorem beginEvent_faultOpcode  : (beginEvent s).faultOpcode = s.faultOpcode := rfl
@[simp] theorem beginEvent_faultPc  : (beginEvent s).faultPc = s.faultPc := rfl
@[simp] theorem beginEvent_trace  : (beginEvent s).trace = s.trace := rfl
@[simp] theorem beginEvent_key  : (beginEvent s).key = s.key := rfl
@[simp] theorem beginEvent_rnd  : (beginEvent s).rnd = s.rnd := rfl
@[simp] theorem beginEvent_playTone  : (beginEvent s).playTone = false := rfl
@[simp] theorem beginEvent_stopTone  : (beginEvent s).stopTone = false := rfl
@[simp] theorem beginEvent_traceOut  : (beginEvent s).traceOut = none := rfl
@[simp] theorem beginEvent_renderDirty  : (beginEvent s).renderDirty = none := rfl
@[simp] theorem beginEvent_curWord  : (beginEvent s).curWord = s.curWord := rfl
@[simp] theorem beginEvent_curPc  : (beginEvent s).curPc = s.curPc := rfl
@[simp] theorem beginEvent_cfg  : (beginEvent s).cfg = s.cfg := rfl
@[simp] theorem beginEvent_events  : (beginEvent s).events = s.events.tail := rfl
@[simp] theorem beginEvent_eventNo  : (beginEvent s).eventNo = s.eventNo + 1 := rfl

/-! ### The render and `dirty_clr` -/

@[simp] theorem renderThenClear_v (clr : Bool) : (renderThenClear clr s).v = s.v := rfl
@[simp] theorem renderThenClear_vWritten (clr : Bool) : (renderThenClear clr s).vWritten = s.vWritten := rfl
@[simp] theorem renderThenClear_i (clr : Bool) : (renderThenClear clr s).i = s.i := rfl
@[simp] theorem renderThenClear_iWritten (clr : Bool) : (renderThenClear clr s).iWritten = s.iWritten := rfl
@[simp] theorem renderThenClear_pc (clr : Bool) : (renderThenClear clr s).pc = s.pc := rfl
@[simp] theorem renderThenClear_stack (clr : Bool) : (renderThenClear clr s).stack = s.stack := rfl
@[simp] theorem renderThenClear_sp (clr : Bool) : (renderThenClear clr s).sp = s.sp := rfl
@[simp] theorem renderThenClear_dt (clr : Bool) : (renderThenClear clr s).dt = s.dt := rfl
@[simp] theorem renderThenClear_st (clr : Bool) : (renderThenClear clr s).st = s.st := rfl
@[simp] theorem renderThenClear_mem (clr : Bool) : (renderThenClear clr s).mem = s.mem := rfl
@[simp] theorem renderThenClear_fb (clr : Bool) : (renderThenClear clr s).fb = s.fb := rfl
@[simp] theorem renderThenClear_dirty (clr : Bool) : (renderThenClear clr s).dirty = (s.dirty && !clr) := rfl
@[simp] theorem renderThenClear_halt (clr : Bool) : (renderThenClear clr s).halt = s.halt := rfl
@[simp] theorem renderThenClear_susp (clr : Bool) : (renderThenClear clr s).susp = s.susp := rfl
@[simp] theorem renderThenClear_waitK (clr : Bool) : (renderThenClear clr s).waitK = s.waitK := rfl
@[simp] theorem renderThenClear_waitX (clr : Bool) : (renderThenClear clr s).waitX = s.waitX := rfl
@[simp] theorem renderThenClear_cause (clr : Bool) : (renderThenClear clr s).cause = s.cause := rfl
@[simp] theorem renderThenClear_faultOpcode (clr : Bool) : (renderThenClear clr s).faultOpcode = s.faultOpcode := rfl
@[simp] theorem renderThenClear_faultPc (clr : Bool) : (renderThenClear clr s).faultPc = s.faultPc := rfl
@[simp] theorem renderThenClear_trace (clr : Bool) : (renderThenClear clr s).trace = s.trace := rfl
@[simp] theorem renderThenClear_key (clr : Bool) : (renderThenClear clr s).key = s.key := rfl
@[simp] theorem renderThenClear_rnd (clr : Bool) : (renderThenClear clr s).rnd = s.rnd := rfl
@[simp] theorem renderThenClear_playTone (clr : Bool) : (renderThenClear clr s).playTone = s.playTone := rfl
@[simp] theorem renderThenClear_stopTone (clr : Bool) : (renderThenClear clr s).stopTone = s.stopTone := rfl
@[simp] theorem renderThenClear_traceOut (clr : Bool) : (renderThenClear clr s).traceOut = s.traceOut := rfl
@[simp] theorem renderThenClear_renderDirty (clr : Bool) : (renderThenClear clr s).renderDirty = some s.dirty := rfl
@[simp] theorem renderThenClear_curWord (clr : Bool) : (renderThenClear clr s).curWord = s.curWord := rfl
@[simp] theorem renderThenClear_curPc (clr : Bool) : (renderThenClear clr s).curPc = s.curPc := rfl
@[simp] theorem renderThenClear_cfg (clr : Bool) : (renderThenClear clr s).cfg = s.cfg := rfl
@[simp] theorem renderThenClear_events (clr : Bool) : (renderThenClear clr s).events = s.events := rfl
@[simp] theorem renderThenClear_eventNo (clr : Bool) : (renderThenClear clr s).eventNo = s.eventNo := rfl

/-! ### The faults of the tick are fault entries -/

@[simp] theorem raiseFault_eq (c : Cause) :
    raiseFault c s = enterFault c (some s.curWord) (some s.curPc) s := rfl

@[simp] theorem raiseFetchFault_eq : raiseFetchFault s = enterFault .outOfBoundsAccess none (some s.pc) s := rfl

@[simp] theorem enterBreak_eq : enterBreak s = enterFault .break none none s := rfl

@[simp] theorem raiseRomTooLarge_eq : raiseRomTooLarge s = enterFault .romTooLarge none none s := rfl

end Sys2Proof.Machine
end

