-- ==== Sys2Proof/Laws/Memory.lean ====
section
/-! SUPPORT. Memory: a read after a write to the same address gives the byte written, a write leaves every other address
alone, and every operation keeps the canonical form. -/

namespace Sys2Proof.Machine

/-! ### Reading the list -/

theorem Memory.listed_unlist_self (a : Nat) (m : Memory) : Memory.listed a (Memory.unlist a m) = none := by
  induction m with
  | nil => rfl
  | cons c m ih =>
    simp only [Memory.unlist]
    split
    · exact ih
    · rename_i h; simp [Memory.listed, h, ih]

theorem Memory.listed_unlist_other {a a' : Nat} (h : a' ≠ a) (m : Memory) :
    Memory.listed a' (Memory.unlist a m) = Memory.listed a' m := by
  induction m with
  | nil => rfl
  | cons c m ih =>
    simp only [Memory.unlist]
    split
    · rename_i hc; rw [ih, Memory.listed, if_neg (by omega)]
    · simp [Memory.listed, ih]

theorem Memory.listed_put_self (a : Nat) (b : Byte) (m : Memory) : Memory.listed a (Memory.put a b m) = some b := by
  induction m with
  | nil => simp [Memory.put, Memory.listed]
  | cons c m ih =>
    simp only [Memory.put]
    split
    · rename_i h; rw [Memory.listed, if_neg (by omega), ih]
    · split <;> simp [Memory.listed]

theorem Memory.listed_put_other {a a' : Nat} (h : a' ≠ a) (b : Byte) (m : Memory) :
    Memory.listed a' (Memory.put a b m) = Memory.listed a' m := by
  induction m with
  | nil => simp [Memory.put, Memory.listed, Ne.symm h]
  | cons c m ih =>
    simp only [Memory.put]
    split
    · simp [Memory.listed, ih]
    · split
      · rename_i hc; simp [Memory.listed, Ne.symm h, hc]
      · simp [Memory.listed, Ne.symm h]

theorem Memory.byte_write_self (font : Vector Byte 80) (m : Memory) (a : Addr) (b : Byte) :
    Memory.byte font (Memory.write font m a b) a = some b := by
  unfold Memory.write
  split
  · simp [Memory.byte, Memory.listed_unlist_self, *]
  · simp [Memory.byte, Memory.listed_put_self]

theorem Memory.byte_write_other (font : Vector Byte 80) (m : Memory) {a a' : Addr} (h : a' ≠ a) (b : Byte) :
    Memory.byte font (Memory.write font m a b) a' = Memory.byte font m a' := by
  have h' : a'.toNat ≠ a.toNat := fun e => h (BitVec.eq_of_toNat_eq e)
  unfold Memory.write
  split
  · simp [Memory.byte, Memory.listed_unlist_other h']
  · simp [Memory.byte, Memory.listed_put_other h']

@[simp] theorem byteAt_storeByte_self (s : State) (a : Addr) (b : Byte) : byteAt (storeByte s a b) a = some b :=
  Memory.byte_write_self ..

theorem byteAt_storeByte_other (s : State) {a a' : Addr} (h : a' ≠ a) (b : Byte) :
    byteAt (storeByte s a b) a' = byteAt s a' :=
  Memory.byte_write_other _ _ h _

theorem byteAt_storeByte (s : State) (a a' : Addr) (b : Byte) :
    byteAt (storeByte s a b) a' = if a' = a then some b else byteAt s a' := by
  split
  · subst a'; simp
  · exact byteAt_storeByte_other s ‹_› b

/-- A byte that has been written stays written. -/
theorem byteAt_storeByte_isSome {s : State} {a' : Addr} (h : (byteAt s a').isSome) (a : Addr) (b : Byte) :
    (byteAt (storeByte s a b) a').isSome := by
  rw [byteAt_storeByte]; split <;> simp [h]

/-! ### The canonical form -/

theorem Memory.mem_unlist {a : Nat} {m : Memory} {c : Host.Cell} (h : c ∈ Memory.unlist a m) : c ∈ m := by
  induction m with
  | nil => exact h
  | cons d m ih =>
    simp only [Memory.unlist] at h
    split at h
    · exact .tail _ (ih h)
    · rcases List.mem_cons.mp h with rfl | h
      · exact .head _
      · exact .tail _ (ih h)

theorem Memory.mem_put {a : Nat} {b : Byte} {m : Memory} {c : Host.Cell} (h : c ∈ Memory.put a b m) :
    c = (a, b) ∨ c ∈ m := by
  induction m with
  | nil => exact .inl (by simpa [Memory.put] using h)
  | cons d m ih =>
    simp only [Memory.put] at h
    split at h
    · rcases List.mem_cons.mp h with rfl | h
      · exact .inr (.head _)
      · exact (ih h).imp_right (.tail _)
    · split at h
      · exact (List.mem_cons.mp h).imp_right (.tail _)
      · exact List.mem_cons.mp h

theorem Memory.pairwise_unlist {a : Nat} {m : Memory} (h : m.Pairwise (fun c d => c.1 < d.1)) :
    (Memory.unlist a m).Pairwise (fun c d => c.1 < d.1) := by
  induction m with
  | nil => exact h
  | cons c m ih =>
    obtain ⟨hc, hm⟩ := List.pairwise_cons.mp h
    simp only [Memory.unlist]
    split
    · exact ih hm
    · exact List.pairwise_cons.mpr ⟨fun d hd => hc d (Memory.mem_unlist hd), ih hm⟩

theorem Memory.pairwise_put {a : Nat} {b : Byte} {m : Memory} (h : m.Pairwise (fun c d => c.1 < d.1)) :
    (Memory.put a b m).Pairwise (fun c d => c.1 < d.1) := by
  induction m with
  | nil => exact List.pairwise_singleton ..
  | cons c m ih =>
    obtain ⟨hc, hm⟩ := List.pairwise_cons.mp h
    simp only [Memory.put]
    split
    · refine List.pairwise_cons.mpr ⟨fun d hd => ?_, ih hm⟩
      rcases Memory.mem_put hd with rfl | hd
      · assumption
      · exact hc d hd
    · split
      · rename_i e; exact List.pairwise_cons.mpr ⟨fun d hd => e ▸ hc d hd, hm⟩
      · refine List.pairwise_cons.mpr ⟨fun d hd => ?_, h⟩
        rcases List.mem_cons.mp hd with rfl | hd
        · simp only; omega
        · have := hc d hd; simp only; omega

/-- A write keeps the canonical form. -/
theorem Memory.wf_write {font : Vector Byte 80} {m : Memory} (h : Memory.wf font m) (a : Addr) (b : Byte) :
    Memory.wf font (Memory.write font m a b) := by
  unfold Memory.write
  split
  · exact ⟨Memory.pairwise_unlist h.1, fun c hc => h.2 c (Memory.mem_unlist hc)⟩
  · rename_i hb
    refine ⟨Memory.pairwise_put h.1, fun c hc => ?_⟩
    rcases Memory.mem_put hc with rfl | hc
    · exact ⟨a.isLt, hb⟩
    · exact h.2 c hc

theorem storeByte_wf {s : State} (h : Memory.wf s.cfg.font s.mem) (a : Addr) (b : Byte) :
    Memory.wf (storeByte s a b).cfg.font (storeByte s a b).mem :=
  Memory.wf_write h a b

/-- Memory at reset is canonical: nothing is listed. -/
theorem reset_memory_wf : Memory.wf State.reset.cfg.font State.reset.mem := ⟨.nil, fun _ h => nomatch h⟩

/-! ### Reading an operand of memory (R62) -/

/-- A read answers the byte of a written cell. -/
theorem readMem_of_byteAt {s : State} {a : Addr} {b : Byte} (h : byteAt s a = some b) : readMem s a = .ok b := by
  simp [readMem, h]

/-- All a read of memory can do. -/
theorem readMem_cases {s : State} {a : Addr} {b : Byte} (h : readMem s a = .ok b) :
    byteAt s a = some b ∨ (byteAt s a = none ∧ s.cfg.unwritten = .zero ∧ b = 0) := by
  unfold readMem at h
  split at h
  · rename_i e; cases h; exact .inl e
  · rename_i e u; cases h; exact .inr ⟨e, u, rfl⟩
  · cases h

/-- A read of memory depends on the bytes and on the parameters only. -/
theorem readMem_congr {s t : State} {a : Addr} (hb : byteAt t a = byteAt s a) (hc : t.cfg = s.cfg) :
    readMem t a = readMem s a := by
  simp [readMem, hb, hc]

end Sys2Proof.Machine
end

