-- ==== Sys2Proof/Laws/Ops.lean ====
section
/-! SUPPORT. What each shared operation can do, said once: registers, reads, loops, the stack, the program counter, the
write-back, the register blocks and the framebuffer. -/

namespace Sys2Proof.Machine

/-! ### Reads and loops -/

@[simp] theorem readThen_ok {α : Type} (a : α) (k : α → Result) : readThen (.ok a) k = k a := rfl

@[simp] theorem readThen_error {α : Type} (f : Fault) (k : α → Result) : readThen (.error f) k = .fault f := rfl

/-- A read that is followed by a next state has answered a value. -/
theorem readThen_next {α : Type} {r : Except Fault α} {k : α → Result} {t : State} (h : readThen r k = .next t) :
    ∃ a, r = .ok a ∧ k a = .next t := by
  cases r with
  | ok a => exact ⟨a, rfl, h⟩
  | error f => cases h

theorem readMap_ok {α β : Type} {r : Except Fault α} {k : α → β} {b : β} (h : readMap r k = .ok b) :
    ∃ a, r = .ok a ∧ k a = b := by
  cases r with
  | ok a => exact ⟨a, rfl, by simpa [readMap] using h⟩
  | error f => cases h

/-- What every round of a loop keeps, the loop keeps. -/
theorem forUpTo_keeps {σ : Type} {P : σ → Prop} {body : Nat → σ → Except Fault σ}
    (hb : ∀ k s t, P s → body k s = .ok t → P t) :
    ∀ {n : Nat} {s t : σ}, P s → forUpTo n body s = .ok t → P t
  | 0, _, _, hp, h => by cases h; exact hp
  | n + 1, s, t, hp, h => by
    simp only [forUpTo] at h
    split at h
    · rename_i u hu; exact hb n u t (forUpTo_keeps hb hp hu) h
    · cases h

theorem repeatUpTo_keeps {σ : Type} {P : σ → Prop} {body : Nat → σ → σ} (hb : ∀ k s, P s → P (body k s)) :
    ∀ (n : Nat) {s : σ}, P s → P (repeatUpTo n body s)
  | 0, _, hp => hp
  | n + 1, _, hp => hb n _ (repeatUpTo_keeps hb n hp)

/-! ### Registers -/

theorem vAt_setV (s : State) (x y : Nibble) (b : Byte) : vAt (setV s x b) y = if y = x then b else vAt s y := by
  simp only [vAt, setV, Vector.getElem_set]
  by_cases h : y = x
  · subst y; simp
  · have h' : ¬ x.toNat = y.toNat := fun e => h (BitVec.eq_of_toNat_eq e).symm
    simp [h, h']

@[simp] theorem vAt_setV_self (s : State) (x : Nibble) (b : Byte) : vAt (setV s x b) x = b := by simp [vAt_setV]

theorem vIsWritten_setV (s : State) (x y : Nibble) (b : Byte) :
    vIsWritten (setV s x b) y = (decide (y = x) || vIsWritten s y) := by
  simp only [vIsWritten, setV, BitVec.getLsbD_or, BitVec.getLsbD_twoPow]
  by_cases h : y = x
  · subst y; simp [x.isLt]
  · have h' : ¬ x.toNat = y.toNat := fun e => h (BitVec.eq_of_toNat_eq e).symm
    simp [h, h']

/-- A register whose written bit is set reads as its value. -/
theorem readV_of_written {s : State} {x : Nibble} (h : vIsWritten s x = true) : readV s x = .ok (vAt s x) := by
  simp [readV, h]

/-- All a read of a register can do (R39). -/
theorem readV_cases {s : State} {x : Nibble} {a : Byte} (h : readV s x = .ok a) :
    (vIsWritten s x = true ∧ a = vAt s x) ∨ (vIsWritten s x = false ∧ s.cfg.unwritten = .zero ∧ a = 0) := by
  unfold readV at h
  split at h
  · rename_i e; cases h; exact .inl ⟨e, rfl⟩
  · rename_i e u; cases h; exact .inr ⟨e, u, rfl⟩
  · cases h

theorem readI_cases {s : State} {a : Addr} (h : readI s = .ok a) :
    (s.iWritten = true ∧ a = s.i) ∨ (s.iWritten = false ∧ s.cfg.unwritten = .zero ∧ a = 0) := by
  unfold readI at h
  split at h
  · rename_i e; cases h; exact .inl ⟨e, rfl⟩
  · rename_i e u; cases h; exact .inr ⟨e, u, rfl⟩
  · cases h

/-- A write of a register touches no byte of memory. -/
@[simp] theorem byteAt_setV (s : State) (x : Nibble) (b : Byte) (a : Addr) : byteAt (setV s x b) a = byteAt s a := rfl

@[simp] theorem byteAt_setI (s : State) (i a : Addr) : byteAt (setI s i) a = byteAt s a := rfl

@[simp] theorem vAt_setI (s : State) (i : Addr) (x : Nibble) : vAt (setI s i) x = vAt s x := rfl

@[simp] theorem vIsWritten_setI (s : State) (i : Addr) (x : Nibble) : vIsWritten (setI s i) x = vIsWritten s x := rfl

@[simp] theorem vAt_storeByte (s : State) (a : Addr) (b : Byte) (x : Nibble) : vAt (storeByte s a b) x = vAt s x := rfl

@[simp] theorem vIsWritten_storeByte (s : State) (a : Addr) (b : Byte) (x : Nibble) :
    vIsWritten (storeByte s a b) x = vIsWritten s x := rfl

@[simp] theorem readV_storeByte (s : State) (a : Addr) (b : Byte) (x : Nibble) : readV (storeByte s a b) x = readV s x := rfl

/-! ### The program counter and the stack -/

/-- All a jump can do. -/
theorem goTo_cases (s : State) (t : Nat) :
    (s.cfg.pcOverflow = .fault ∧ 0x1000 ≤ t ∧ goTo s t = raiseFault .outOfBoundsAccess s) ∨
      goTo s t = setPc s (BitVec.ofNat 12 t) := by
  unfold goTo
  split
  · rename_i h; exact .inl ⟨h.1, h.2, rfl⟩
  · exact .inr rfl

/-- All a skip can do. -/
theorem skipIf_cases (c : Bool) (s : State) :
    (c = false ∧ skipIf c s = s) ∨ (c = true ∧ skipIf c s = goTo s (s.pc.toNat + 2)) := by
  cases c
  · exact .inl ⟨rfl, rfl⟩
  · exact .inr ⟨rfl, rfl⟩

/-- All a call can do (R151, R154). -/
theorem pushThenJump_cases (s : State) (a target : Addr) :
    (s.sp = s.cfg.stackDepth ∧ pushThenJump s a target = raiseFault .stackOverflow s) ∨
      (s.sp ≠ s.cfg.stackDepth ∧
        pushThenJump s a target = { s with stack := s.stack.set s.sp a, sp := s.sp + 1, pc := target }) := by
  unfold pushThenJump stackFull
  split
  · rename_i h; exact .inl ⟨by simpa using h, rfl⟩
  · rename_i h; exact .inr ⟨by simpa using h, rfl⟩

/-- All a return can do (R152, R155). -/
theorem popToPc_cases (s : State) :
    (s.sp = 0 ∧ popToPc s = raiseFault .stackUnderflow s) ∨
      (s.sp ≠ 0 ∧ popToPc s = { s with sp := s.sp - 1, pc := stackAt s (s.sp - 1) }) := by
  unfold popToPc stackEmpty
  split
  · rename_i h; exact .inl ⟨by simpa using h, rfl⟩
  · rename_i h; exact .inr ⟨by simpa using h, rfl⟩

/-! ### The write-back (R191) -/

/-- The register file after a write-back: the result in V[x], the flag in VF where it is written and x is not F. -/
theorem vAt_writeBack (s : State) (x : Nibble) (out : AluOut) (r : Nibble) :
    vAt (writeBack s x out) r =
      if r = x then out.res else if r = vf ∧ out.flagWe = true then flagByte out.flag else vAt s r := by
  unfold writeBack
  rw [vAt_setV]
  split
  · rfl
  · cases out.flagWe <;> simp [vAt_setV]

theorem vIsWritten_writeBack (s : State) (x : Nibble) (out : AluOut) (r : Nibble) :
    vIsWritten (writeBack s x out) r = (decide (r = x) || (decide (r = vf) && out.flagWe) || vIsWritten s r) := by
  unfold writeBack
  rw [vIsWritten_setV]
  cases out.flagWe <;> simp [vIsWritten_setV, Bool.or_assoc]

/-- A write-back changes registers only. -/
theorem writeBack_frame (s : State) (x : Nibble) (out : AluOut) :
    writeBack s x out = { s with v := (writeBack s x out).v, vWritten := (writeBack s x out).vWritten } := by
  unfold writeBack
  cases out.flagWe <;> rfl

/-- All a class-8 operation can do. -/
theorem aluXY_next {op : AluOp} {x y : Nibble} {s t : State} (h : aluXY op x y s = .next t) :
    ∃ a b, readV s x = .ok a ∧ readV s y = .ok b ∧ t = writeBack s x (alu s.cfg op a b s.rnd) := by
  obtain ⟨a, ha, h⟩ := readThen_next h
  obtain ⟨b, hb, h⟩ := readThen_next h
  exact ⟨a, b, ha, hb, by cases h; rfl⟩

/-- All a shift can do. -/
theorem aluShift_next {op : AluOp} {x y : Nibble} {s t : State} (h : aluShift op x y s = .next t) :
    ∃ a, readV s (shiftSource s x y) = .ok a ∧ t = writeBack s x (alu s.cfg op a a s.rnd) := by
  obtain ⟨a, ha, h⟩ := readThen_next h
  exact ⟨a, ha, by cases h; rfl⟩

/-! ### Register blocks (R245, R246) -/

/-- A block store changes memory only. -/
theorem storeRegs_frame {i : Addr} {n : Nat} {s t : State} (h : storeRegs i n s = .ok t) : t = { s with mem := t.mem } := by
  refine forUpTo_keeps (P := fun t => t = { s with mem := t.mem }) ?_ rfl h
  intro k u t hu h
  obtain ⟨b, _, rfl⟩ := readMap_ok h
  rw [hu]; rfl

/-- A block load changes registers only. -/
theorem loadRegs_frame {i : Addr} {n : Nat} {s t : State} (h : loadRegs i n s = .ok t) :
    t = { s with v := t.v, vWritten := t.vWritten } := by
  refine forUpTo_keeps (P := fun t => t = { s with v := t.v, vWritten := t.vWritten }) ?_ rfl h
  intro k u t hu h
  obtain ⟨b, _, rfl⟩ := readMap_ok h
  rw [hu]; rfl

/-- The end of a block operation changes I only, where it changes anything. -/
theorem advanceI_cases (i : Addr) (x : Nibble) (s : State) :
    (s.cfg.ldstIncI = true ∧ advanceI i x s = setI s (ea i (x.toNat + 1))) ∨
      (s.cfg.ldstIncI = false ∧ advanceI i x s = s) := by
  unfold advanceI
  cases s.cfg.ldstIncI
  · exact .inr ⟨rfl, rfl⟩
  · exact .inl ⟨rfl, rfl⟩

/-! ### The framebuffer (R301) -/

/-- `XorCell` inverts its cell and no other. -/
theorem fbCell_xorCell (fb : Framebuffer) (r c r' c' : Nat) (hr : r < 32) (hc : c < 64) :
    fbCell (xorCell fb r c) r' c' = (fbCell fb r' c' ^^ decide (r' = r ∧ c' = c)) := by
  unfold fbCell xorCell
  by_cases h : r' < 32
  · by_cases e : r' = r
    · subst e
      simp only [h, dif_pos, Vector.getElem_set_self, BitVec.getLsbD_xor, BitVec.getLsbD_twoPow, hc, decide_true,
        Bool.true_and, true_and]
      by_cases e' : c = c' <;> simp [e', eq_comm]
    · simp [h, hr, e, Vector.getElem_set_ne _ _ (fun e' => e e'.symm)]
  · simp [h, show ¬ r' = r by omega]

/-- The end of a draw: the cells, VF and DIRTY. -/
theorem finishDraw_frame (s : State) (d : Drawing) :
    finishDraw s d = { s with v := (finishDraw s d).v, vWritten := (finishDraw s d).vWritten, fb := d.fb,
                              dirty := s.dirty || d.changed } := rfl

/-- A draw writes one register, VF, with the collision. -/
theorem vAt_finishDraw (s : State) (d : Drawing) (r : Nibble) :
    vAt (finishDraw s d) r = if r = vf then (if d.coll then 1 else 0) else vAt s r :=
  vAt_setV { s with fb := d.fb } vf r _

theorem vIsWritten_finishDraw (s : State) (d : Drawing) (r : Nibble) :
    vIsWritten (finishDraw s d) r = (decide (r = vf) || vIsWritten s r) :=
  vIsWritten_setV { s with fb := d.fb } vf r (if d.coll then 1 else 0)

/-! ### Keys -/

/-- `lowestKey` is the lowest key that is down (R276, R277). -/
theorem lowestKey_some {keys : BitVec 16} {k : Nat} (h : lowestKey keys = some k) :
    k < 16 ∧ keys.getLsbD k = true ∧ ∀ j < k, keys.getLsbD j = false := by
  obtain ⟨hk, as, bs, e, hall⟩ := List.find?_eq_some_iff_append.mp h
  have hk16 : k < 16 := List.mem_range.mp (e ▸ by simp)
  refine ⟨hk16, hk, fun j hj => ?_⟩
  have hlen : as.length = k := by
    have := congrArg (fun l => l[as.length]?) e
    simp at this
    by_cases h' : as.length < 16
    · rw [List.getElem?_range h'] at this; simpa using this
    · have h2 := congrArg List.length e; simp at h2; omega
  have hj' : j ∈ as := by
    have := congrArg (fun l => l[j]?) e
    simp only [List.getElem?_append_left (show j < as.length by omega), List.getElem?_range (show j < 16 by omega)] at this
    exact List.mem_of_getElem? this.symm
  simpa using hall j hj'

theorem lowestKey_none {keys : BitVec 16} (h : lowestKey keys = none) : keys = 0 := by
  have := List.find?_eq_none.mp h
  refine BitVec.eq_of_getLsbD_eq fun k hk => ?_
  simpa using this k (List.mem_range.mpr hk)

end Sys2Proof.Machine
end

