-- ==== Sys2Proof/Laws/Blocks.lean ====
section
/-! SUPPORT. What the register blocks (R245, R246) answer where everything they read can be read. -/

namespace Sys2Proof.Machine

/-- Two offsets below 4096 give two addresses (R243). -/
theorem ea_ne {i : Addr} {j k : Nat} (hj : j < 4096) (hk : k < 4096) (h : j ≠ k) : ea i j ≠ ea i k := by
  intro e
  have e' := congrArg BitVec.toNat e
  have := i.isLt
  simp only [ea, BitVec.toNat_add, BitVec.toNat_ofNat] at e'
  omega

/-- The registers of a block are different registers. -/
theorem blockReg_ne {j k : Nat} (hj : j < 16) (hk : k < 16) (h : j ≠ k) : blockReg j ≠ blockReg k := by
  intro e
  have e' := congrArg BitVec.toNat e
  simp only [blockReg, BitVec.toNat_ofNat] at e'
  omega

theorem forUpTo_succ_ok {σ : Type} {body : Nat → σ → Except Fault σ} {n : Nat} {s t u : σ}
    (ht : forUpTo n body s = .ok t) (hu : body n t = .ok u) : forUpTo (n + 1) body s = .ok u := by
  simp only [forUpTo, ht, hu]

/-- A block store whose registers can be read puts each of them at its address, and changes no other byte. -/
theorem storeRegs_ok (s : State) (i : Addr) (vals : Nat → Byte) : ∀ n ≤ 16,
    (∀ k < n, readV s (blockReg k) = .ok (vals k)) →
    ∃ t, storeRegs i n s = .ok t ∧ (∀ k < n, byteAt t (ea i k) = some (vals k)) ∧
      ∀ a, (∀ k < n, a ≠ ea i k) → byteAt t a = byteAt s a := by
  intro n
  induction n with
  | zero => exact fun _ _ => ⟨s, rfl, fun k hk => absurd hk (by omega), fun _ _ => rfl⟩
  | succ n ih =>
    intro hn hv
    obtain ⟨t, ht, h1, h2⟩ := ih (by omega) fun k hk => hv k (by omega)
    have hr : readV t (blockReg n) = .ok (vals n) := by rw [storeRegs_frame ht]; exact hv n (by omega)
    refine ⟨storeByte t (ea i n) (vals n), forUpTo_succ_ok ht (by rw [hr]; rfl), fun k hk => ?_, fun a ha => ?_⟩
    · by_cases e : k = n
      · subst e; simp
      · rw [byteAt_storeByte_other _ (ea_ne (by omega) (by omega) e)]; exact h1 k (by omega)
    · rw [byteAt_storeByte_other _ (ha n (by omega))]
      exact h2 a fun k hk => ha k (by omega)

/-- A block load whose bytes can be read puts each of them in its register, and writes no other register. -/
theorem loadRegs_ok (s : State) (i : Addr) (vals : Nat → Byte) : ∀ n ≤ 16,
    (∀ k < n, readMem s (ea i k) = .ok (vals k)) →
    ∃ t, loadRegs i n s = .ok t ∧ (∀ k < n, vAt t (blockReg k) = vals k ∧ vIsWritten t (blockReg k) = true) ∧
      ∀ r : Nibble, n ≤ r.toNat → vAt t r = vAt s r ∧ vIsWritten t r = vIsWritten s r := by
  intro n
  induction n with
  | zero => exact fun _ _ => ⟨s, rfl, fun k hk => absurd hk (by omega), fun _ _ => ⟨rfl, rfl⟩⟩
  | succ n ih =>
    intro hn hv
    obtain ⟨t, ht, h1, h2⟩ := ih (by omega) fun k hk => hv k (by omega)
    have hr : readMem t (ea i n) = .ok (vals n) := by rw [loadRegs_frame ht]; exact hv n (by omega)
    refine ⟨setV t (blockReg n) (vals n), forUpTo_succ_ok ht (by rw [hr]; rfl), fun k hk => ?_, fun r hr' => ?_⟩
    · by_cases e : k = n
      · subst e; simp [vIsWritten_setV]
      · have := blockReg_ne (j := k) (k := n) (by omega) (by omega) e
        simp [vAt_setV, vIsWritten_setV, this, h1 k (by omega)]
    · have h3 : r ≠ blockReg n := by rintro rfl; simp [blockReg] at hr'; omega
      have := h2 r (by omega)
      simp [vAt_setV, vIsWritten_setV, h3, this]

end Sys2Proof.Machine
end

