-- ==== Sys2Proof/Laws/Boot.lean ====
section
/-! SUPPORT. What loading a ROM does to the state (R370), said once. -/

namespace Sys2Proof.Machine

/-- A store changes memory only. -/
theorem storeByte_frame {s u : State} (h : u = { s with mem := u.mem }) (a : Addr) (b : Byte) :
    storeByte u a b = { s with mem := (storeByte u a b).mem } := by
  rw [h]; rfl

/-- Loading a ROM changes memory only. -/
theorem loadRom_frame (rom : List Byte) (n : Nat) (s : State) :
    loadRom rom n s = { s with mem := (loadRom rom n s).mem } := by
  unfold loadRom
  refine repeatUpTo_keeps (P := fun u : State => u = { s with mem := u.mem }) ?_ n rfl
  intro k u h
  exact storeByte_frame h _ _

/-- The bytes after the first `n` bytes of a ROM are loaded. -/
theorem byteAt_loadRom (rom : List Byte) (hl : rom.length ≤ 0xE00) (s : State) : ∀ n ≤ rom.length, ∀ a : Addr,
    byteAt (loadRom rom n s) a =
      if 0x200 ≤ a.toNat ∧ a.toNat < 0x200 + n then rom[a.toNat - 0x200]? else byteAt s a := by
  intro n
  induction n with
  | zero => intro _ a; rw [if_neg (by omega)]; rfl
  | succ n ih =>
    intro h1 a
    have ha := a.isLt
    have ad : (progBase + BitVec.ofNat 12 n).toNat = 0x200 + n := by
      simp [progBase, BitVec.toNat_add]; omega
    change byteAt (storeByte (loadRom rom n s) (progBase + BitVec.ofNat 12 n) (rom.getD n 0)) a = _
    rw [byteAt_storeByte, ih (by omega)]
    by_cases h : a = progBase + BitVec.ofNat 12 n
    · rw [if_pos h, if_pos (by rw [h, ad]; omega)]
      rw [h, ad, Nat.add_sub_cancel_left, List.getD_eq_getElem?_getD, List.getElem?_eq_getElem (by omega)]; rfl
    · have h' : a.toNat ≠ 0x200 + n := fun e => h (BitVec.eq_of_toNat_eq (by rw [e, ad]))
      rw [if_neg h]
      by_cases h3 : 0x200 ≤ a.toNat ∧ a.toNat < 0x200 + n
      · rw [if_pos h3, if_pos (by omega)]
      · rw [if_neg h3, if_neg (by omega)]

/-- The bytes right after reset: the font, and nothing else. -/
theorem byteAt_resetWith (cfg : Config) (a : Addr) :
    byteAt (resetWith cfg) a = if h : a.toNat < 80 then some (cfg.font[a.toNat]'h) else none := by
  simp only [byteAt, resetWith, State.reset, Memory.byte, Memory.listed, Memory.launchByte]
  split <;> simp_all

end Sys2Proof.Machine
end

