-- ==== Sys2Proof/Laws/Draw.lean ====
section
/-! SUPPORT. What the sprite draw does to the framebuffer, the collision and the change bit (R301 to R305), said once. A
sprite bit touches a cell of its own, so the order of the bits does not matter. -/

namespace Sys2Proof.Machine

/-- A sprite bit is set on the cell (r, c), for the columns below `m` of the sprite row `row`. -/
def RowCovers (byte : Byte) (x0 y0 row m r c : Nat) : Prop :=
  r < 32 ∧ c < 64 ∧ r = y0 + row ∧ x0 ≤ c ∧ c < x0 + m ∧ byte.getLsbD (7 - (c - x0)) = true

/-- `e` follows `d` by inverting the cells of a set `P`, none of them twice. -/
def Inverts (d e : Drawing) (P : Nat → Nat → Prop) : Prop :=
  (∀ r c, P r c → fbCell e.fb r c = !fbCell d.fb r c) ∧ (∀ r c, ¬ P r c → fbCell e.fb r c = fbCell d.fb r c) ∧
  (e.coll = true ↔ d.coll = true ∨ ∃ r c, P r c ∧ fbCell d.fb r c = true) ∧
  (e.changed = true ↔ d.changed = true ∨ ∃ r c, P r c)

theorem inverts_nothing {d : Drawing} {P : Nat → Nat → Prop} (h : ∀ r c, ¬ P r c) : Inverts d d P :=
  ⟨fun r c hp => absurd hp (h r c), fun _ _ _ => rfl,
   ⟨.inl, fun h' => h'.elim id fun ⟨r, c, hp, _⟩ => absurd hp (h r c)⟩,
   ⟨.inl, fun h' => h'.elim id fun ⟨r, c, hp⟩ => absurd hp (h r c)⟩⟩

/-- Inverting one set of cells and then another, with no cell in both, inverts the cells of either. -/
theorem inverts_trans {d e f : Drawing} {P Q R : Nat → Nat → Prop} (h1 : Inverts d e P) (h2 : Inverts e f Q)
    (hd : ∀ r c, P r c → ¬ Q r c) (hR : ∀ r c, R r c ↔ P r c ∨ Q r c) : Inverts d f R := by
  obtain ⟨a1, a2, a3, a4⟩ := h1
  obtain ⟨b1, b2, b3, b4⟩ := h2
  refine ⟨fun r c h => ?_, fun r c h => ?_, ?_, ?_⟩
  · rcases (hR r c).mp h with h | h
    · rw [b2 r c (hd r c h), a1 r c h]
    · rw [b1 r c h, a2 r c fun h' => hd r c h' h]
  · rw [hR, not_or] at h
    rw [b2 r c h.2, a2 r c h.1]
  · rw [b3, a3]
    constructor
    · rintro ((h | ⟨r, c, hp, hc⟩) | ⟨r, c, hq, hc⟩)
      · exact .inl h
      · exact .inr ⟨r, c, (hR r c).mpr (.inl hp), hc⟩
      · exact .inr ⟨r, c, (hR r c).mpr (.inr hq), by rw [← a2 r c fun h' => hd r c h' hq]; exact hc⟩
    · rintro (h | ⟨r, c, hr, hc⟩)
      · exact .inl (.inl h)
      · rcases (hR r c).mp hr with hp | hq
        · exact .inl (.inr ⟨r, c, hp, hc⟩)
        · exact .inr ⟨r, c, hq, by rw [a2 r c fun h' => hd r c h' hq]; exact hc⟩
  · rw [b4, a4]
    constructor
    · rintro ((h | ⟨r, c, hp⟩) | ⟨r, c, hq⟩)
      · exact .inl h
      · exact .inr ⟨r, c, (hR r c).mpr (.inl hp)⟩
      · exact .inr ⟨r, c, (hR r c).mpr (.inr hq)⟩
    · rintro (h | ⟨r, c, hr⟩)
      · exact .inl (.inl h)
      · rcases (hR r c).mp hr with hp | hq
        · exact .inl (.inr ⟨r, c, hp⟩)
        · exact .inr ⟨r, c, hq⟩

/-- One sprite bit inverts its own cell, if the bit is set and the cell is on the grid (R301, R302). -/
theorem drawBit_inverts (x0 y0 row : Nat) (byte : Byte) (col : Nat) (d : Drawing) :
    Inverts d (drawBit x0 y0 row byte col d) fun r c =>
      byte.getLsbD (7 - col) = true ∧ x0 + col < 64 ∧ y0 + row < 32 ∧ r = y0 + row ∧ c = x0 + col := by
  unfold drawBit
  split
  · rename_i h
    obtain ⟨h1, h2, h3⟩ := h
    refine ⟨?_, ?_, ?_, ?_⟩
    · rintro r c ⟨-, -, -, rfl, rfl⟩
      simp [fbCell_xorCell _ _ _ _ _ h3 h2]
    · intro r c hn
      have : ¬ (r = y0 + row ∧ c = x0 + col) := fun h => hn ⟨h1, h2, h3, h⟩
      simp [fbCell_xorCell _ _ _ _ _ h3 h2, this]
    · simp [h1, h2, h3]
    · simp [h1, h2, h3]
  · rename_i h
    exact inverts_nothing fun r c hp => h ⟨hp.1, hp.2.1, hp.2.2.1⟩

/-- The first `m` bits of a sprite row. -/
theorem drawBits_inverts (x0 y0 row : Nat) (byte : Byte) (d : Drawing) : ∀ m,
    Inverts d (repeatUpTo m (fun col e => drawBit x0 y0 row byte col e) d) (RowCovers byte x0 y0 row m)
  | 0 => inverts_nothing fun r c h => by unfold RowCovers at h; omega
  | m + 1 => by
    refine inverts_trans (drawBits_inverts x0 y0 row byte d m) (drawBit_inverts x0 y0 row byte m _) ?_ ?_
    · rintro r c ⟨-, -, -, -, h, -⟩ ⟨-, -, -, -, h'⟩
      omega
    · intro r c
      constructor
      · rintro ⟨h1, h2, h3, h4, h5, h6⟩
        by_cases e : c = x0 + m
        · subst e
          exact .inr ⟨by simpa using h6, h2, by omega, h3, rfl⟩
        · exact .inl ⟨h1, h2, h3, h4, by omega, h6⟩
      · rintro (⟨h1, h2, h3, h4, h5, h6⟩ | ⟨h1, h2, h3, h4, h5⟩)
        · exact ⟨h1, h2, h3, h4, by omega, h6⟩
        · subst h4 h5
          exact ⟨h3, h2, rfl, by omega, by omega, by simpa using h1⟩

/-- The whole sprite, where every row's byte can be read (R303). -/
theorem drawRows_ok (s : State) (i : Addr) (x0 y0 : Nat) (bytes : Nat → Byte) (d : Drawing) : ∀ n,
    (∀ k < n, readMem s (ea i k) = .ok (bytes k)) →
    ∃ e, drawRows s i x0 y0 n d = .ok e ∧
      Inverts d e fun r c => ∃ row < n, RowCovers (bytes row) x0 y0 row 8 r c := by
  intro n
  induction n with
  | zero => exact fun _ => ⟨d, rfl, inverts_nothing fun _ _ ⟨_, h, _⟩ => absurd h (by omega)⟩
  | succ n ih =>
    intro hb
    obtain ⟨e, he, hi⟩ := ih fun k hk => hb k (by omega)
    refine ⟨drawRow x0 y0 n (bytes n) e, ?_, ?_⟩
    · unfold drawRows at he ⊢
      simp only [forUpTo, he]
      rw [hb n (by omega)]; rfl
    · refine inverts_trans hi (drawBits_inverts x0 y0 n (bytes n) e 8) ?_ ?_
      · rintro r c ⟨row, hrow, -, -, h, -⟩ ⟨-, -, h', -⟩
        omega
      · intro r c
        constructor
        · rintro ⟨row, hrow, h⟩
          by_cases e : row = n
          · subst e; exact .inr h
          · exact .inl ⟨row, by omega, h⟩
        · rintro (⟨row, hrow, h⟩ | h)
          · exact ⟨row, by omega, h⟩
          · exact ⟨n, by omega, h⟩

/-- A framebuffer is its cells. -/
theorem framebuffer_ext {f g : Framebuffer} (h : ∀ r < 32, ∀ c < 64, fbCell f r c = fbCell g r c) : f = g := by
  refine Vector.ext fun r hr => BitVec.eq_of_getLsbD_eq fun c hc => ?_
  simpa [fbCell, hr] using h r hr c hc

end Sys2Proof.Machine
end

