-- ==== Sys2Proof/Laws/Exec.lean ====
section
/-! SUPPORT. What an instruction can do, said once: the shapes of the next state, with the operations that have each shape.
A statement over all instructions is a case analysis of `Effect`. -/

namespace Sys2Proof.Machine

/-- The operations whose only effect is a write-back of registers. -/
def regOps : List Op :=
  [.ldVxKk, .addVxKk, .ldVxVy, .orVxVy, .andVxVy, .xorVxVy, .addVxVy, .subVxVy, .shrVxVy, .subnVxVy, .shlVxVy, .rndVxKk,
   .ldVxDt, .ldVxK]

/-- The operations that move `pc` or leave it, and touch no stack. -/
def jumpOps : List Op := [.jp, .jpV0, .seVxKk, .sneVxKk, .seVxVy, .sneVxVy, .skp, .sknp]

/-- The operations that can raise a fatal fault. -/
def faultOps : List Op := [.ret, .call, .jpV0, .seVxKk, .sneVxKk, .seVxVy, .sneVxVy, .skp, .sknp]

/-- The operations that write I alone. -/
def indexOps : List Op := [.ldI, .addIVx, .ldFVx]

/-- The next states of an operation. -/
inductive Effect (s : State) : Op → State → Prop where
  | regs {op : Op} (h : op ∈ regOps) (x : Nibble) (out : AluOut) : Effect s op (writeBack s x out)
  | jumps {op : Op} (h : op ∈ jumpOps) (a : Addr) : Effect s op (setPc s a)
  | faults {op : Op} (h : op ∈ faultOps) {c : Cause} (hc : c.fatal = true) (hr : c.recoverable = false)
      (ho : c = .outOfBoundsAccess → s.cfg.pcOverflow = .fault) : Effect s op (raiseFault c s)
  | pushes (target : Addr) (h : s.sp ≠ s.cfg.stackDepth) :
      Effect s .call { s with stack := s.stack.set s.sp s.pc, sp := s.sp + 1, pc := target }
  | pops (h : s.sp ≠ 0) : Effect s .ret { s with sp := s.sp - 1, pc := stackAt s (s.sp - 1) }
  | index {op : Op} (h : op ∈ indexOps) (a : Addr) : Effect s op (setI s a)
  | digits (a : Byte) (i : Addr) :
      Effect s .ldBVx (repeatUpTo 3 (fun k t => storeByte t (ea i k) (bcdDigit a k)) s)
  | stores (i : Addr) (x : Nibble) {t : State} (h : storeRegs i (x.toNat + 1) s = .ok t) :
      Effect s .ldMemVx (advanceI i x t)
  | loads (i : Addr) (x : Nibble) {t : State} (h : loadRegs i (x.toNat + 1) s = .ok t) :
      Effect s .ldVxMem (advanceI i x t)
  | delay (a : Byte) : Effect s .ldDtVx { s with dt := a }
  | sound (a : Byte) : Effect s .ldStVx { s with st := a }
  | waits (x : Nibble) : Effect s .ldVxK { s with waitK := true, waitX := x }
  | clears : Effect s .cls { s with fb := Vector.replicate 32 0, dirty := true }
  | draws (d : Drawing) : Effect s .drw (finishDraw s d)

theorem effect_goTo {s : State} {op : Op} (h : op ∈ jumpOps) (hf : op ∈ faultOps) (t : Nat) : Effect s op (goTo s t) := by
  rcases goTo_cases s t with ⟨hp, -, e⟩ | e <;> rw [e]
  · exact .faults hf rfl rfl fun _ => hp
  · exact .jumps h _

theorem effect_skipIf {s : State} {op : Op} (h : op ∈ jumpOps) (hf : op ∈ faultOps) (c : Bool) :
    Effect s op (skipIf c s) := by
  rcases skipIf_cases c s with ⟨-, e⟩ | ⟨-, e⟩ <;> rw [e]
  · exact .jumps h s.pc
  · exact effect_goTo h hf _

theorem effect_aluXY {s t : State} {op : Op} {f : AluOp} {x y : Nibble} (hop : op ∈ regOps)
    (h : aluXY f x y s = .next t) : Effect s op t := by
  obtain ⟨a, b, -, -, rfl⟩ := aluXY_next h
  exact .regs hop _ _

theorem effect_aluShift {s t : State} {op : Op} {f : AluOp} {x y : Nibble} (hop : op ∈ regOps)
    (h : aluShift f x y s = .next t) : Effect s op t := by
  obtain ⟨a, -, rfl⟩ := aluShift_next h
  exact .regs hop _ _

/-- All an instruction can do where it answers a next state. -/
theorem exec_effect {i : Instr} {s t : State} (h : exec i s = .next t) : Effect s i.op t := by
  cases i with
  | cls n => cases h; exact .clears
  | ret n =>
    cases h
    rcases popToPc_cases s with ⟨-, e⟩ | ⟨hs, e⟩ <;> rw [e]
    · exact .faults (by simp only [Instr.op]; decide) rfl rfl fun h => nomatch h
    · exact .pops hs
  | jp nnn => cases h; exact .jumps (by simp only [Instr.op]; decide) _
  | call nnn =>
    cases h
    rcases pushThenJump_cases s s.pc nnn with ⟨-, e⟩ | ⟨hs, e⟩ <;> rw [e]
    · exact .faults (by simp only [Instr.op]; decide) rfl rfl fun h => nomatch h
    · exact .pushes _ hs
  | seVxKk x kk => obtain ⟨a, -, h⟩ := readThen_next h; cases h; exact effect_skipIf (by simp only [Instr.op]; decide) (by simp only [Instr.op]; decide) _
  | sneVxKk x kk => obtain ⟨a, -, h⟩ := readThen_next h; cases h; exact effect_skipIf (by simp only [Instr.op]; decide) (by simp only [Instr.op]; decide) _
  | seVxVy x y n =>
    obtain ⟨a, -, h⟩ := readThen_next h
    obtain ⟨b, -, h⟩ := readThen_next h
    cases h; exact effect_skipIf (by simp only [Instr.op]; decide) (by simp only [Instr.op]; decide) _
  | sneVxVy x y n =>
    obtain ⟨a, -, h⟩ := readThen_next h
    obtain ⟨b, -, h⟩ := readThen_next h
    cases h; exact effect_skipIf (by simp only [Instr.op]; decide) (by simp only [Instr.op]; decide) _
  | skp x => obtain ⟨a, -, h⟩ := readThen_next h; cases h; exact effect_skipIf (by simp only [Instr.op]; decide) (by simp only [Instr.op]; decide) _
  | sknp x => obtain ⟨a, -, h⟩ := readThen_next h; cases h; exact effect_skipIf (by simp only [Instr.op]; decide) (by simp only [Instr.op]; decide) _
  | jpV0 nnn => obtain ⟨a, -, h⟩ := readThen_next h; cases h; exact effect_goTo (by simp only [Instr.op]; decide) (by simp only [Instr.op]; decide) _
  | ldVxKk x kk => cases h; exact .regs (by simp only [Instr.op]; decide) _ _
  | addVxKk x kk => obtain ⟨a, -, h⟩ := readThen_next h; cases h; exact .regs (by simp only [Instr.op]; decide) _ _
  | ldVxVy x y => obtain ⟨a, -, h⟩ := readThen_next h; cases h; exact .regs (by simp only [Instr.op]; decide) _ _
  | orVxVy x y => exact effect_aluXY (by simp only [Instr.op]; decide) h
  | andVxVy x y => exact effect_aluXY (by simp only [Instr.op]; decide) h
  | xorVxVy x y => exact effect_aluXY (by simp only [Instr.op]; decide) h
  | addVxVy x y => exact effect_aluXY (by simp only [Instr.op]; decide) h
  | subVxVy x y => exact effect_aluXY (by simp only [Instr.op]; decide) h
  | subnVxVy x y => exact effect_aluXY (by simp only [Instr.op]; decide) h
  | shrVxVy x y => exact effect_aluShift (by simp only [Instr.op]; decide) h
  | shlVxVy x y => exact effect_aluShift (by simp only [Instr.op]; decide) h
  | rndVxKk x kk => cases h; exact .regs (by simp only [Instr.op]; decide) _ _
  | ldVxDt x => cases h; exact .regs (by simp only [Instr.op]; decide) x ⟨s.dt, false, false⟩
  | ldVxK x =>
    simp only [exec, execLdVxK] at h
    split at h <;> cases h
    · exact .regs (by simp only [Instr.op]; decide) x ⟨keyCode _, false, false⟩
    · exact .waits x
  | ldI nnn => cases h; exact .index (by simp only [Instr.op]; decide) _
  | addIVx x =>
    obtain ⟨a, -, h⟩ := readThen_next h
    obtain ⟨b, -, h⟩ := readThen_next h
    cases h; exact .index (by simp only [Instr.op]; decide) _
  | ldFVx x => obtain ⟨a, -, h⟩ := readThen_next h; cases h; exact .index (by simp only [Instr.op]; decide) _
  | ldBVx x =>
    obtain ⟨a, -, h⟩ := readThen_next h
    obtain ⟨b, -, h⟩ := readThen_next h
    cases h; exact .digits _ _
  | ldMemVx x =>
    obtain ⟨i, -, h⟩ := readThen_next h
    obtain ⟨u, hu, h⟩ := readThen_next h
    cases h; exact .stores i x hu
  | ldVxMem x =>
    obtain ⟨i, -, h⟩ := readThen_next h
    obtain ⟨u, hu, h⟩ := readThen_next h
    cases h; exact .loads i x hu
  | ldDtVx x => obtain ⟨a, -, h⟩ := readThen_next h; cases h; exact .delay _
  | ldStVx x => obtain ⟨a, -, h⟩ := readThen_next h; cases h; exact .sound _
  | drw x y n =>
    obtain ⟨a, -, h⟩ := readThen_next h
    obtain ⟨b, -, h⟩ := readThen_next h
    obtain ⟨i, -, h⟩ := readThen_next h
    obtain ⟨d, -, h⟩ := readThen_next h
    cases h; exact .draws d

end Sys2Proof.Machine
end

