-- ==== Sys2Proof/Laws/PerInstr.lean ====
section
/-! SUPPORT. One lemma per instruction about its encoding: its word matches its row of the opcode map (R94). -/

namespace Sys2Proof.Laws.RowMatch

/-- The word of `i` matches the row of the opcode map that carries the operation of `i`. -/
def Statement (i : Instr) : Prop := ∃ row ∈ opcodeMap, row.op = i.op ∧ encode i &&& row.mask = row.pattern

theorem formatNNN_mask (c : Nibble) (nnn : Addr) : formatNNN c nnn &&& 0xF000 = formatNNN c 0 := by
  unfold formatNNN
  rw [show (0xF000 : Word) = (0xF#4 ++ 0x000#12 : Word) by decide, BitVec.and_append]
  exact congrArg₂ (fun (a : BitVec 4) (b : BitVec 12) => a ++ b) (BitVec.and_allOnes (x := c)) BitVec.and_zero

theorem formatXKK_mask_class (c x : Nibble) (kk : Byte) : formatXKK c x kk &&& 0xF000 = formatXKK c 0 0 := by
  unfold formatXKK
  rw [show (0xF000 : Word) = (0xF#4 ++ 0x0#4 ++ 0x00#8 : Word) by decide, BitVec.and_append, BitVec.and_append]
  exact congrArg₂ (fun (a : BitVec 8) (b : BitVec 8) => a ++ b)
    (congrArg₂ (fun (a b : BitVec 4) => a ++ b) (BitVec.and_allOnes (x := c)) BitVec.and_zero) BitVec.and_zero

theorem formatXKK_mask_low (c x : Nibble) (kk : Byte) : formatXKK c x kk &&& 0xF0FF = formatXKK c 0 kk := by
  unfold formatXKK
  rw [show (0xF0FF : Word) = (0xF#4 ++ 0x0#4 ++ 0xFF#8 : Word) by decide, BitVec.and_append, BitVec.and_append]
  exact congrArg₂ (fun (a : BitVec 8) (b : BitVec 8) => a ++ b)
    (congrArg₂ (fun (a b : BitVec 4) => a ++ b) (BitVec.and_allOnes (x := c)) BitVec.and_zero)
    (BitVec.and_allOnes (x := kk))

theorem formatXYN_mask_class (c x y n : Nibble) : formatXYN c x y n &&& 0xF000 = formatXYN c 0 0 0 := by
  unfold formatXYN
  rw [show (0xF000 : Word) = (0xF#4 ++ 0x0#4 ++ 0x0#4 ++ 0x0#4 : Word) by decide, BitVec.and_append, BitVec.and_append,
    BitVec.and_append]
  exact congrArg₂ (fun (a : BitVec 12) (b : BitVec 4) => a ++ b)
    (congrArg₂ (fun (a : BitVec 8) (b : BitVec 4) => a ++ b)
      (congrArg₂ (fun (a b : BitVec 4) => a ++ b) (BitVec.and_allOnes (x := c)) BitVec.and_zero) BitVec.and_zero)
    BitVec.and_zero

theorem formatXYN_mask_low (c x y n : Nibble) : formatXYN c x y n &&& 0xF00F = formatXYN c 0 0 n := by
  unfold formatXYN
  rw [show (0xF00F : Word) = (0xF#4 ++ 0x0#4 ++ 0x0#4 ++ 0xF#4 : Word) by decide, BitVec.and_append, BitVec.and_append,
    BitVec.and_append]
  exact congrArg₂ (fun (a : BitVec 12) (b : BitVec 4) => a ++ b)
    (congrArg₂ (fun (a : BitVec 8) (b : BitVec 4) => a ++ b)
      (congrArg₂ (fun (a b : BitVec 4) => a ++ b) (BitVec.and_allOnes (x := c)) BitVec.and_zero) BitVec.and_zero)
    (BitVec.and_allOnes (x := n))

/-- A row of the map, from the masked word. -/
theorem of_row {i : Instr} (p m : Word) (h : ⟨i.op, p, m⟩ ∈ opcodeMap) (e : encode i &&& m = p) : Statement i :=
  ⟨_, h, rfl, e⟩

theorem cls (h : Nibble) : Statement (.cls h) := of_row 0x00E0 0xF0FF (by simp [Instr.op]; decide) ((formatXKK_mask_low ..).trans (by decide))
theorem ret (h : Nibble) : Statement (.ret h) := of_row 0x00EE 0xF0FF (by simp [Instr.op]; decide) ((formatXKK_mask_low ..).trans (by decide))
theorem jp (nnn : Addr) : Statement (.jp nnn) := of_row 0x1000 0xF000 (by simp [Instr.op]; decide) ((formatNNN_mask ..).trans (by decide))
theorem call (nnn : Addr) : Statement (.call nnn) := of_row 0x2000 0xF000 (by simp [Instr.op]; decide) ((formatNNN_mask ..).trans (by decide))
theorem seVxKk (x : Nibble) (kk : Byte) : Statement (.seVxKk x kk) := of_row 0x3000 0xF000 (by simp [Instr.op]; decide) ((formatXKK_mask_class ..).trans (by decide))
theorem sneVxKk (x : Nibble) (kk : Byte) : Statement (.sneVxKk x kk) := of_row 0x4000 0xF000 (by simp [Instr.op]; decide) ((formatXKK_mask_class ..).trans (by decide))
theorem seVxVy (x y h : Nibble) : Statement (.seVxVy x y h) := of_row 0x5000 0xF000 (by simp [Instr.op]; decide) ((formatXYN_mask_class ..).trans (by decide))
theorem ldVxKk (x : Nibble) (kk : Byte) : Statement (.ldVxKk x kk) := of_row 0x6000 0xF000 (by simp [Instr.op]; decide) ((formatXKK_mask_class ..).trans (by decide))
theorem addVxKk (x : Nibble) (kk : Byte) : Statement (.addVxKk x kk) := of_row 0x7000 0xF000 (by simp [Instr.op]; decide) ((formatXKK_mask_class ..).trans (by decide))
theorem ldVxVy (x y : Nibble) : Statement (.ldVxVy x y) := of_row 0x8000 0xF00F (by simp [Instr.op]; decide) ((formatXYN_mask_low ..).trans (by decide))
theorem orVxVy (x y : Nibble) : Statement (.orVxVy x y) := of_row 0x8001 0xF00F (by simp [Instr.op]; decide) ((formatXYN_mask_low ..).trans (by decide))
theorem andVxVy (x y : Nibble) : Statement (.andVxVy x y) := of_row 0x8002 0xF00F (by simp [Instr.op]; decide) ((formatXYN_mask_low ..).trans (by decide))
theorem xorVxVy (x y : Nibble) : Statement (.xorVxVy x y) := of_row 0x8003 0xF00F (by simp [Instr.op]; decide) ((formatXYN_mask_low ..).trans (by decide))
theorem addVxVy (x y : Nibble) : Statement (.addVxVy x y) := of_row 0x8004 0xF00F (by simp [Instr.op]; decide) ((formatXYN_mask_low ..).trans (by decide))
theorem subVxVy (x y : Nibble) : Statement (.subVxVy x y) := of_row 0x8005 0xF00F (by simp [Instr.op]; decide) ((formatXYN_mask_low ..).trans (by decide))
theorem shrVxVy (x y : Nibble) : Statement (.shrVxVy x y) := of_row 0x8006 0xF00F (by simp [Instr.op]; decide) ((formatXYN_mask_low ..).trans (by decide))
theorem subnVxVy (x y : Nibble) : Statement (.subnVxVy x y) := of_row 0x8007 0xF00F (by simp [Instr.op]; decide) ((formatXYN_mask_low ..).trans (by decide))
theorem shlVxVy (x y : Nibble) : Statement (.shlVxVy x y) := of_row 0x800E 0xF00F (by simp [Instr.op]; decide) ((formatXYN_mask_low ..).trans (by decide))
theorem sneVxVy (x y h : Nibble) : Statement (.sneVxVy x y h) := of_row 0x9000 0xF000 (by simp [Instr.op]; decide) ((formatXYN_mask_class ..).trans (by decide))
theorem ldI (nnn : Addr) : Statement (.ldI nnn) := of_row 0xA000 0xF000 (by simp [Instr.op]; decide) ((formatNNN_mask ..).trans (by decide))
theorem jpV0 (nnn : Addr) : Statement (.jpV0 nnn) := of_row 0xB000 0xF000 (by simp [Instr.op]; decide) ((formatNNN_mask ..).trans (by decide))
theorem rndVxKk (x : Nibble) (kk : Byte) : Statement (.rndVxKk x kk) := of_row 0xC000 0xF000 (by simp [Instr.op]; decide) ((formatXKK_mask_class ..).trans (by decide))
theorem drw (x y n : Nibble) : Statement (.drw x y n) := of_row 0xD000 0xF000 (by simp [Instr.op]; decide) ((formatXYN_mask_class ..).trans (by decide))
theorem skp (x : Nibble) : Statement (.skp x) := of_row 0xE09E 0xF0FF (by simp [Instr.op]; decide) ((formatXKK_mask_low ..).trans (by decide))
theorem sknp (x : Nibble) : Statement (.sknp x) := of_row 0xE0A1 0xF0FF (by simp [Instr.op]; decide) ((formatXKK_mask_low ..).trans (by decide))
theorem ldVxDt (x : Nibble) : Statement (.ldVxDt x) := of_row 0xF007 0xF0FF (by simp [Instr.op]; decide) ((formatXKK_mask_low ..).trans (by decide))
theorem ldVxK (x : Nibble) : Statement (.ldVxK x) := of_row 0xF00A 0xF0FF (by simp [Instr.op]; decide) ((formatXKK_mask_low ..).trans (by decide))
theorem ldDtVx (x : Nibble) : Statement (.ldDtVx x) := of_row 0xF015 0xF0FF (by simp [Instr.op]; decide) ((formatXKK_mask_low ..).trans (by decide))
theorem ldStVx (x : Nibble) : Statement (.ldStVx x) := of_row 0xF018 0xF0FF (by simp [Instr.op]; decide) ((formatXKK_mask_low ..).trans (by decide))
theorem addIVx (x : Nibble) : Statement (.addIVx x) := of_row 0xF01E 0xF0FF (by simp [Instr.op]; decide) ((formatXKK_mask_low ..).trans (by decide))
theorem ldFVx (x : Nibble) : Statement (.ldFVx x) := of_row 0xF029 0xF0FF (by simp [Instr.op]; decide) ((formatXKK_mask_low ..).trans (by decide))
theorem ldBVx (x : Nibble) : Statement (.ldBVx x) := of_row 0xF033 0xF0FF (by simp [Instr.op]; decide) ((formatXKK_mask_low ..).trans (by decide))
theorem ldMemVx (x : Nibble) : Statement (.ldMemVx x) := of_row 0xF055 0xF0FF (by simp [Instr.op]; decide) ((formatXKK_mask_low ..).trans (by decide))
theorem ldVxMem (x : Nibble) : Statement (.ldVxMem x) := of_row 0xF065 0xF0FF (by simp [Instr.op]; decide) ((formatXKK_mask_low ..).trans (by decide))

end Sys2Proof.Laws.RowMatch
end

