-- ==== Sys2Proof/Laws/Step.lean ====
section
/-! SUPPORT. What the tick and the step can do, said once. -/

namespace Sys2Proof.Machine

/-- The end of a tick that answers a state: the instruction halted the core, or the timers were stepped. -/
theorem finishTick_next {st0 : Byte} {r : Result} {t : State} (h : finishTick st0 r = .next t) :
    ∃ u, r = .next u ∧ ((u.halt = true ∧ t = u) ∨ (u.halt = false ∧ t = timerStep st0 u)) := by
  cases r with
  | next u =>
    refine ⟨u, rfl, ?_⟩
    cases hu : u.halt
    · exact .inr ⟨rfl, by simpa [finishTick, hu] using h.symm⟩
    · exact .inl ⟨rfl, by simpa [finishTick, hu] using h.symm⟩
  | fault f => cases h
  | refused f => cases h

/-- All the execution of a fetched word can do: a DecodeFault, or its instruction and the end of the tick. -/
theorem runWord_next {st0 : Byte} {s t : State} (h : runWord st0 s = .next t) :
    (decodeWord s.curWord = none ∧ t = raiseFault .decodeFault s) ∨
      ∃ i u, decodeWord s.curWord = some i ∧ exec i s = .next u ∧
        ((u.halt = true ∧ t = u) ∨ (u.halt = false ∧ t = timerStep st0 u)) := by
  unfold runWord at h
  split at h
  · cases h; exact .inl ⟨‹_›, rfl⟩
  · obtain ⟨u, hu, ht⟩ := finishTick_next h
    exact .inr ⟨_, u, ‹_›, hu, ht⟩

/-- All a running tick can do: a fetch out of bounds, a DecodeFault, or an instruction. -/
theorem runningTick_next {s t : State} (h : runningTick s = .next t) :
    (fetchOutOfBounds s = true ∧ t = raiseFetchFault s) ∨
      (fetchOutOfBounds s = false ∧ ∃ w, fetchWord s = .ok w ∧ runWord s.st (beginWord w s) = .next t) := by
  unfold runningTick at h
  split at h
  · cases h; exact .inl ⟨‹_›, rfl⟩
  · exact .inr ⟨by simpa using ‹¬ fetchOutOfBounds s = true›, readThen_next h⟩

/-- All a capture can do (R277). -/
theorem captureKey_cases (s : State) :
    (lowestKey s.key = none ∧ captureKey s = s) ∨
      ∃ k, lowestKey s.key = some k ∧ captureKey s = { setV s s.waitX (keyCode k) with waitK := false } := by
  unfold captureKey
  split
  · exact .inr ⟨_, ‹_›, rfl⟩
  · exact .inl ⟨‹_›, rfl⟩

/-- All the tick of the underlying state can do. -/
theorem underlyingTick_next {keys : BitVec 16} {rnd : Byte} {s t : State} (h : underlyingTick keys rnd s = .next t) :
    (s.waitK = true ∧ t = waitingTick keys s) ∨
      (s.waitK = false ∧ runningTick (latchInputs keys rnd s) = .next t) := by
  unfold underlyingTick at h
  split at h
  · cases h; exact .inl ⟨‹_›, rfl⟩
  · exact .inr ⟨by simpa using ‹¬ s.waitK = true›, h⟩

/-- All the core's part of a pulse can do. -/
theorem pulseTick_next {keys : BitVec 16} {rnd : Byte} {brk : Bool} {s t : State}
    (h : pulseTick keys rnd brk s = .next t) :
    t = s ∨
      (s.halt = false ∧ s.susp = false ∧ (t = enterBreak s ∨ underlyingTick keys rnd s = .next t)) := by
  unfold pulseTick runState at h
  cases hh : s.halt
  · cases hs : s.susp
    · refine .inr ⟨rfl, rfl, ?_⟩
      cases hw : s.waitK <;> cases brk <;> simp [hh, hs, hw] at h
      · exact .inr h
      · exact .inl h.symm
      · exact .inr h
      · exact .inl h.symm
    · simp [hh, hs] at h; exact .inl h.symm
  · simp [hh] at h; exact .inl h.symm

/-- All the render after a tick can do: it needs the tick's state. -/
theorem renderAfter_next {clr : Bool} {r : Result} {t : State} (h : renderAfter clr r = .next t) :
    ∃ u, r = .next u ∧ t = renderThenClear clr u := by
  cases r with
  | next u => cases h; exact ⟨u, rfl, rfl⟩
  | fault f => cases h
  | refused f => cases h

/-- Without `dirty_clr` the render changes no state of the core, only what it presents. -/
theorem renderThenClear_false (s : State) : renderThenClear false s = { s with renderDirty := some s.dirty } := by
  simp [renderThenClear]

/-- All a pulse can do. -/
theorem takePulse_next {keys : BitVec 16} {rnd : Byte} {brk clr : Bool} {s t : State}
    (h : takePulse keys rnd brk clr s = .next t) :
    ∃ u, pulseTick keys rnd brk s = .next u ∧ t = renderThenClear (clr && !s.halt) u :=
  renderAfter_next h

/-- All the debugger's `step` can do. -/
theorem takeSingleStep_next {keys : BitVec 16} {rnd : Byte} {s t : State}
    (h : takeSingleStep keys rnd s = .next t) :
    t = s ∨ (s.halt = false ∧ s.susp = true ∧ underlyingTick keys rnd s = .next t) := by
  unfold takeSingleStep runState at h
  cases hh : s.halt
  · cases hs : s.susp
    · cases hw : s.waitK <;> simp [hh, hs, hw] at h <;> exact .inl h.symm
    · simp [hh, hs] at h; exact .inr ⟨rfl, rfl, h⟩
  · simp [hh] at h; exact .inl h.symm

theorem resume_cases (s : State) :
    resume s = s ∨ (s.halt = false ∧ s.susp = true ∧ resume s = { s with susp := false }) := by
  unfold resume runState
  cases hh : s.halt
  · cases hs : s.susp
    · cases hw : s.waitK <;> simp
    · simp
  · simp

theorem enableTrace_cases (s : State) :
    enableTrace s = s ∨ (s.halt = false ∧ s.susp = true ∧ enableTrace s = { s with trace := true }) := by
  unfold enableTrace runState
  cases hh : s.halt
  · cases hs : s.susp
    · cases hw : s.waitK <;> simp
    · simp
  · simp

/-- `P` holds after a step of a state that meets it, where the parts of a step keep it: the one induction that every
invariant over all events goes through. -/
theorem step_keeps {P : State → Prop}
    (begin : ∀ s, P s → P (beginEvent s))
    (latch : ∀ s k r, P s → P (latchInputs k r s))
    (word : ∀ s w, P s → P (beginWord w s))
    (fetchFault : ∀ s, fetchOutOfBounds s = true → P s → P (raiseFetchFault s))
    (decodeFault : ∀ s, s.halt = false → P s → P (raiseFault .decodeFault s))
    (brk : ∀ s, s.halt = false → s.susp = false → P s → P (enterBreak s))
    (run : ∀ i s t, s.halt = false → P s → exec i s = .next t → P t)
    (timers : ∀ s st0, P s → P (timerStep st0 s))
    (wait : ∀ s k, P s → P (waitingTick k s))
    (render : ∀ s clr, P s → P (renderThenClear clr s))
    (resumed : ∀ s, P s → P { s with susp := false })
    (traced : ∀ s, P s → P { s with trace := true })
    {s t : State} (hs : P s) (h : step s = .next t) : P t := by
  have tick : ∀ {s t : State} {k r}, s.halt = false → P s → underlyingTick k r s = .next t → P t := by
    intro s t k r hh hp h
    rcases underlyingTick_next h with ⟨-, rfl⟩ | ⟨-, h⟩
    · exact wait _ _ hp
    · have hl := latch s k r hp
      rcases runningTick_next h with ⟨ho, rfl⟩ | ⟨-, w, -, h⟩
      · exact fetchFault _ ho hl
      · have hw := word _ w hl
        rcases runWord_next h with ⟨-, rfl⟩ | ⟨i, u, -, hu, ht⟩
        · exact decodeFault _ (by simpa using hh) hw
        · have hpu := run i _ u (by simpa using hh) hw hu
          rcases ht with ⟨-, rfl⟩ | ⟨-, rfl⟩
          · exact hpu
          · exact timers _ _ hpu
  have hb := begin s hs
  unfold step takeEvent at h
  split at h
  · obtain ⟨u, hu, rfl⟩ := takePulse_next h
    have hpu : P u := by
      rcases pulseTick_next hu with rfl | ⟨hh, hsu, rfl | hu⟩
      · exact hb
      · exact brk _ hh hsu hb
      · exact tick hh hb hu
    exact render _ _ hpu
  · cases h
    rcases resume_cases (beginEvent s) with e | ⟨-, -, e⟩ <;> rw [e]
    · exact hb
    · exact resumed _ hb
  · rcases takeSingleStep_next h with rfl | ⟨hh, -, h⟩
    · exact hb
    · exact tick hh hb h
  · cases h
    rcases enableTrace_cases (beginEvent s) with e | ⟨-, -, e⟩ <;> rw [e]
    · exact hb
    · exact traced _ hb
  · cases h; exact hb
  · cases h; exact hb

end Sys2Proof.Machine
end

