-- ==== Sys2Proof/Tests/Slice0.lean ====
section
/-! SUPPORT. Tests on fixed values, with the expected results of spec/95_test_vectors.md (sections 2.1 to 2.9) or, for the
decoding, the layouts of spec/30_encoding.md; and for each obligation with hypotheses a state and operands that meet
them. -/

namespace Sys2Proof.Tests

open Sys2Proof Sys2Proof.Machine

/-! ### Small states -/

/-- `s` with these registers. -/
def withV (s : State) (l : List (Nibble × Byte)) : State := l.foldl (fun t p => setV t p.1 p.2) s

/-- `s` with these bytes at ascending addresses from `a`. -/
def withBytes (s : State) (a : Addr) (l : List Byte) : State :=
  repeatUpTo l.length (fun k t => storeByte t (ea a k) (l.getD k 0)) s

/-- `s` with other parameters. -/
def withCfg (s : State) (f : Config → Config) : State := { s with cfg := f s.cfg }

/-- `s` with one event scheduled. -/
def withEvent (s : State) (e : Event) : State := { s with events := [e] }

/-- A pulse without a break and without `dirty_clr`. -/
def pulse (keys : BitVec 16) (rnd : Byte) : Event := .pulse keys rnd false false

/-- One step on the word `w`. -/
def run (w : Nat) (s : State) : Result := step (s.withFetchWord 16 w)

/-- A view of the next state; `none` where there is none. -/
def seen {α : Type} (f : State → α) (r : Result) : Option α :=
  match r with
  | .next t => some (f t)
  | .fault _ => none
  | .refused _ => none

/-- How a step stops. -/
def stop (r : Result) : Option Fault :=
  match r with
  | .next _ => none
  | .fault f => some f
  | .refused _ => none

/-- The register file V0..VF has these values in `l`. -/
def regs (l : List Nibble) (t : State) : List Nat := l.map fun x => (vAt t x).toNat

/-! ### Well-formedness (R96, R371): each check refuses an ill-formed term -/

theorem test_cls_aliasing_is_ill_formed : Instr.wellFormed (.cls 1) = false ∧ Instr.wellFormed (.cls 0) = true := by decide
theorem test_ret_aliasing_is_ill_formed : Instr.wellFormed (.ret 0xF) = false ∧ Instr.wellFormed (.ret 0) = true := by decide
theorem test_se_aliasing_is_ill_formed :
    Instr.wellFormed (.seVxVy 1 2 1) = false ∧ Instr.wellFormed (.seVxVy 1 2 0) = true := by decide
theorem test_sne_aliasing_is_ill_formed :
    Instr.wellFormed (.sneVxVy 1 2 0xF) = false ∧ Instr.wellFormed (.sneVxVy 1 2 0) = true := by decide
theorem test_rom_over_0xE00_is_ill_formed : romWellFormed (List.replicate 0xE01 0) = false := by
  unfold romWellFormed; rw [List.length_replicate]; decide
theorem test_rom_of_0xE00_is_legal : romWellFormed (List.replicate 0xE00 0) = true ∧ romWellFormed [] = true := by
  unfold romWellFormed; rw [List.length_replicate]; decide

/-! ### Decoding (R81, R94; vectors of 2.1): every row, its word written out from the layout -/

theorem test_fields_of_D12F : fieldsOf 0xD12F = ⟨0xD, 0x1, 0x2, 0xF, 0x2F, 0x12F⟩ := by decide
theorem test_fields_of_8AB4 : fieldsOf 0x8AB4 = ⟨0x8, 0xA, 0xB, 0x4, 0xB4, 0xAB4⟩ := by decide

theorem test_decode_cls : decodeWord 0b0000000011100000 = some (.cls 0) := by decide
theorem test_decode_ret : decodeWord 0b0000000011101110 = some (.ret 0) := by decide
theorem test_decode_jp : decodeWord 0b0001101010111100 = some (.jp 0xABC) := by decide
theorem test_decode_call : decodeWord 0b0010001100000001 = some (.call 0x301) := by decide
theorem test_decode_seVxKk : decodeWord 0b0011001101000010 = some (.seVxKk 3 0x42) := by decide
theorem test_decode_sneVxKk : decodeWord 0b0100001101000010 = some (.sneVxKk 3 0x42) := by decide
theorem test_decode_seVxVy : decodeWord 0b0101000100100111 = some (.seVxVy 1 2 7) := by decide
theorem test_decode_ldVxKk : decodeWord 0b0110101001111011 = some (.ldVxKk 0xA 0x7B) := by decide
theorem test_decode_addVxKk : decodeWord 0b0111000111111110 = some (.addVxKk 1 0xFE) := by decide
theorem test_decode_ldVxVy : decodeWord 0b1000000100100000 = some (.ldVxVy 1 2) := by decide
theorem test_decode_orVxVy : decodeWord 0b1000000100100001 = some (.orVxVy 1 2) := by decide
theorem test_decode_andVxVy : decodeWord 0b1000000100100010 = some (.andVxVy 1 2) := by decide
theorem test_decode_xorVxVy : decodeWord 0b1000000100100011 = some (.xorVxVy 1 2) := by decide
theorem test_decode_addVxVy : decodeWord 0b1000000100100100 = some (.addVxVy 1 2) := by decide
theorem test_decode_subVxVy : decodeWord 0b1000000100100101 = some (.subVxVy 1 2) := by decide
theorem test_decode_shrVxVy : decodeWord 0b1000000100100110 = some (.shrVxVy 1 2) := by decide
theorem test_decode_subnVxVy : decodeWord 0b1000000100100111 = some (.subnVxVy 1 2) := by decide
theorem test_decode_shlVxVy : decodeWord 0b1000000100101110 = some (.shlVxVy 1 2) := by decide
theorem test_decode_sneVxVy : decodeWord 0b1001000100101111 = some (.sneVxVy 1 2 0xF) := by decide
theorem test_decode_ldI : decodeWord 0b1010001100000010 = some (.ldI 0x302) := by decide
theorem test_decode_jpV0 : decodeWord 0b1011001100000011 = some (.jpV0 0x303) := by decide
theorem test_decode_rndVxKk : decodeWord 0b1100001100001111 = some (.rndVxKk 3 0x0F) := by decide
theorem test_decode_drw : decodeWord 0b1101000000010101 = some (.drw 0 1 5) := by decide
theorem test_decode_skp : decodeWord 0b1110001110011110 = some (.skp 3) := by decide
theorem test_decode_sknp : decodeWord 0b1110001110100001 = some (.sknp 3) := by decide
theorem test_decode_ldVxDt : decodeWord 0b1111001000000111 = some (.ldVxDt 2) := by decide
theorem test_decode_ldVxK : decodeWord 0b1111001100001010 = some (.ldVxK 3) := by decide
theorem test_decode_ldDtVx : decodeWord 0b1111000100010101 = some (.ldDtVx 1) := by decide
theorem test_decode_ldStVx : decodeWord 0b1111000100011000 = some (.ldStVx 1) := by decide
theorem test_decode_addIVx : decodeWord 0b1111001000011110 = some (.addIVx 2) := by decide
theorem test_decode_ldFVx : decodeWord 0b1111000000101001 = some (.ldFVx 0) := by decide
theorem test_decode_ldBVx : decodeWord 0b1111010100110011 = some (.ldBVx 5) := by decide
theorem test_decode_ldMemVx : decodeWord 0b1111001101010101 = some (.ldMemVx 3) := by decide
theorem test_decode_ldVxMem : decodeWord 0b1111010101100101 = some (.ldVxMem 5) := by decide

theorem test_illegal_words_are_refused :
    [0x0000, 0x0123, 0x00E1, 0x00FF, 0x8008, 0x800F, 0xE09F, 0xF000, 0xF0FF].all
      (fun w => (decodeWord w).isNone) = true := by decide

/-- R95: the counts of words that the tables of classes 0, E, F (4096 words less 16 a key) and 8 (256 a key) leave out. -/
theorem test_illegal_word_counts :
    4096 - 16 * class0Table.length = 4064 ∧ 4096 - 256 * class8Table.length = 1792 ∧
    4096 - 16 * classETable.length = 4064 ∧ 4096 - 16 * classFTable.length = 3952 := by decide

theorem test_bytes_are_big_endian : decodeBytes [0x12, 0x34, 0x60] = .ok (.jp 0x234, [0x60]) := by rfl
theorem test_one_byte_is_truncated : decodeBytes [0x12] = .error .truncated := by rfl
theorem test_table_word : decodeTableWord 16 0xD015 = some (.drw 0 1 5) ∧ decodeTableWord 16 0x8008 = none := by decide
theorem test_encode_writes_the_layout : encode (.drw 0 1 5) = 0xD015 ∧ encode (.shlVxVy 1 2) = 0x812E ∧
    encode (.jp 0xABC) = 0x1ABC ∧ encode (.ldVxMem 5) = 0xF565 := by decide

/-- R94: the 34 rows are the 34 operations, each once. -/
theorem test_opcode_map_has_each_operation_once :
    opcodeMap.length = 34 ∧ (opcodeMap.map (fun r => r.op.tag.toNat)) = List.range 34 := by decide

/-! ### Fetch (vectors of 2.2) -/

theorem test_fetch_wraps_at_the_top :
    seen (fun t => (vAt t 0, t.pc)) (run 0x6005 { State.reset with pc := 0xFFE }) = some (5, 0x000) := by decide
theorem test_odd_fetch_wraps_between_the_bytes :
    seen (fun t => (vAt t 1, t.pc)) (step (withEvent (withBytes { State.reset with pc := 0xFFF } 0xFFF [0x61]) (pulse 0 0)))
      = some (0xF0, 0x001) := by decide
theorem test_fetch_out_of_bounds :
    seen (fun t => (t.pc, t.cause, t.halt, t.faultPc, t.faultOpcode))
      (run 0x6005 (withCfg { State.reset with pc := 0xFFE } fun c => { c with pcOverflow := .fault }))
      = some (0xFFE, .outOfBoundsAccess, true, 0xFFE, 0) := by decide
theorem test_fetch_of_unwritten_bytes : stop (step State.reset) = some (.unwrittenRead (.mem 0x200)) := by decide
theorem test_fetch_of_unwritten_bytes_as_zero :
    seen (fun t => (t.cause, t.susp, t.pc)) (step (withEvent (withCfg State.reset fun c => { c with unwritten := .zero })
      (pulse 0 0))) = some (.decodeFault, true, 0x202) := by decide

/-! ### Control flow (vectors of 2.3) -/

theorem test_jp : seen (·.pc) (run 0x1234 State.reset) = some 0x234 := by decide
theorem test_call : seen (fun t => (stackAt t 0, t.sp, t.pc)) (run 0x2300 State.reset) = some (0x202, 1, 0x300) := by decide
theorem test_call_overflow :
    seen (fun t => (t.cause, t.halt, t.sp, t.pc, t.dt)) (run 0x2300 { State.reset with sp := 16, dt := 5 })
      = some (.stackOverflow, true, 16, 0x202, 5) := by decide
theorem test_ret :
    seen (fun t => (t.sp, t.pc)) (run 0x00EE { State.reset with sp := 1, stack := State.reset.stack.set 0 0x202 })
      = some (0, 0x202) := by decide
theorem test_ret_underflow :
    seen (fun t => (t.cause, t.halt, t.sp, t.pc, t.faultOpcode, t.faultPc)) (run 0x00EE State.reset)
      = some (.stackUnderflow, true, 0, 0x202, 0x00EE, 0x200) := by decide
theorem test_jpV0_wraps : seen (·.pc) (run 0xBFFF (withV State.reset [(0, 0xFF)])) = some 0x0FE := by decide
theorem test_jpV0_faults :
    seen (fun t => (t.cause, t.halt, t.pc))
      (run 0xBFFF (withCfg (withV State.reset [(0, 0xFF)]) fun c => { c with pcOverflow := .fault }))
      = some (.outOfBoundsAccess, true, 0x202) := by decide
theorem test_seVxKk : seen (·.pc) (run 0x3342 (withV State.reset [(3, 0x42)])) = some 0x204 := by decide
theorem test_seVxKk_wraps :
    seen (·.pc) (run 0x3342 (withV { State.reset with pc := 0xFFC } [(3, 0x42)])) = some 0x000 := by decide
theorem test_sneVxKk : seen (·.pc) (run 0x4342 (withV State.reset [(3, 0x42)])) = some 0x202 := by decide
theorem test_seVxVy : seen (·.pc) (run 0x5127 (withV State.reset [(1, 7), (2, 7)])) = some 0x204 := by decide
theorem test_sneVxVy : seen (·.pc) (run 0x9120 (withV State.reset [(1, 7), (2, 8)])) = some 0x204 := by decide
theorem test_skp_uses_the_low_nibble :
    seen (·.pc) (run 0xE09E (withV { State.reset with key := 0x0400 } [(0, 0x1A)])) = some 0x204 := by decide
theorem test_skp_other_key :
    seen (·.pc) (run 0xE09E (withV { State.reset with key := 0x0010 } [(0, 5)])) = some 0x202 := by decide
theorem test_sknp : seen (·.pc) (run 0xE0A1 (withV State.reset [(0, 5)])) = some 0x204 := by decide

/-! ### ALU (vectors of 2.4) -/

theorem test_ldVxKk : seen (regs [0xA, 0xF]) (run 0x6A7B State.reset) = some [0x7B, 0] := by decide
theorem test_addVxKk_wraps_without_flag :
    seen (regs [1, 0xF]) (run 0x7101 (withV State.reset [(1, 0xFF), (0xF, 9)])) = some [0, 9] := by decide
theorem test_ldVxVy : seen (regs [1, 2]) (run 0x8120 (withV State.reset [(2, 0x33)])) = some [0x33, 0x33] := by decide
theorem test_or : seen (regs [1, 0xF]) (run 0x8121 (withV State.reset [(1, 0x0F), (2, 0xF0), (0xF, 5)]))
    = some [0xFF, 5] := by decide
theorem test_or_resets_vf :
    seen (regs [1, 0xF]) (run 0x8121 (withCfg (withV State.reset [(1, 0x0F), (2, 0xF0), (0xF, 5)])
      fun c => { c with logicResetsVf := true })) = some [0xFF, 0] := by decide
theorem test_and : seen (regs [1]) (run 0x8122 (withV State.reset [(1, 0x3C), (2, 0x0F)])) = some [0x0C] := by decide
theorem test_xor : seen (regs [1]) (run 0x8123 (withV State.reset [(1, 0xFF), (2, 0x0F)])) = some [0xF0] := by decide
theorem test_add_into_vf_sum_wins :
    seen (regs [0xF]) (run 0x8F24 (withV State.reset [(0xF, 0xFF), (2, 1)])) = some [0] := by decide
theorem test_add_reads_old_vf :
    seen (regs [1, 0xF]) (run 0x81F4 (withV State.reset [(1, 0x10), (0xF, 5)])) = some [0x15, 0] := by decide
theorem test_sub_tie : seen (regs [1, 0xF]) (run 0x8125 (withV State.reset [(1, 7), (2, 7)])) = some [0, 1] := by decide
theorem test_sub_borrow : seen (regs [1, 0xF]) (run 0x8125 (withV State.reset [(1, 3), (2, 5), (0xF, 1)]))
    = some [0xFE, 0] := by decide
theorem test_subn : seen (regs [1, 0xF]) (run 0x8127 (withV State.reset [(1, 3), (2, 5)])) = some [2, 1] := by decide
theorem test_subn_borrow : seen (regs [1, 0xF]) (run 0x8127 (withV State.reset [(1, 5), (2, 3)]))
    = some [0xFE, 0] := by decide
theorem test_shr : seen (regs [1, 0xF]) (run 0x8106 (withV State.reset [(1, 5)])) = some [2, 1] := by decide
theorem test_shr_from_vy :
    seen (regs [1, 0xF]) (run 0x8126 (withCfg (withV State.reset [(1, 5), (2, 0x80)])
      fun c => { c with shiftSrcVy := true })) = some [0x40, 0] := by decide
theorem test_shl : seen (regs [1, 0xF]) (run 0x810E (withV State.reset [(1, 0x81)])) = some [2, 1] := by decide
theorem test_shl_into_vf : seen (regs [0xF]) (run 0x8F0E (withV State.reset [(0xF, 0x81)])) = some [2] := by decide
theorem test_rnd : seen (regs [3]) (run 0xC30F { State.reset with rnd := 0xA7 }) = some [7] := by decide

/-! ### Index and memory (vectors of 2.5) -/

theorem test_ldI : seen (·.i) (run 0xA300 State.reset) = some 0x300 := by decide
theorem test_addIVx_wraps :
    seen (fun t => (t.i, vAt t 0xF)) (run 0xF21E (withV { State.reset with i := 0xFFF } [(2, 1), (0xF, 9)]))
      = some (0, 9) := by decide
theorem test_ldFVx : seen (·.i) (run 0xF029 (withV State.reset [(0, 0xFF)])) = some 0x4FB := by decide
theorem test_ldFVx_masked :
    seen (·.i) (run 0xF029 (withCfg (withV State.reset [(0, 0xFF)]) fun c => { c with fontDigitMask := true }))
      = some 0x04B := by decide
theorem test_ldBVx :
    seen (fun t => (byteAt t 0xFFE, byteAt t 0xFFF, byteAt t 0x000, t.i))
      (run 0xF533 (withV { State.reset with i := 0xFFE } [(5, 123)])) = some (some 1, some 2, some 3, 0xFFE) := by decide
theorem test_ldMemVx :
    seen (fun t => (byteAt t 0xFFE, byteAt t 0xFFF, byteAt t 0x000, byteAt t 0x001, t.i))
      (run 0xF255 (withV { State.reset with i := 0xFFE } [(0, 1), (1, 2), (2, 3)]))
      = some (some 1, some 2, some 3, some 0x90, 0x001) := by decide
theorem test_ldMemVx_keeps_i :
    seen (fun t => (byteAt t 0x302, t.i)) (run 0xF255 (withCfg (withV { State.reset with i := 0x300 } [(2, 3)])
      fun c => { c with ldstIncI := false })) = some (some 3, 0x300) := by decide
theorem test_ldVxMem_reads_the_font :
    seen (fun t => (regs [0, 1, 2, 3, 4, 5] t, t.i)) (run 0xF465 (withV State.reset [(5, 9)]))
      = some ([0xF0, 0x90, 0x90, 0x90, 0xF0, 9], 5) := by decide
theorem test_ldVxMem_unwritten :
    stop (run 0xF065 { State.reset with i := 0x300 }) = some (.unwrittenRead (.mem 0x300)) ∧
    seen (fun t => (vAt t 0, t.i)) (run 0xF065 (withCfg { State.reset with i := 0x300 }
      fun c => { c with unwritten := .zero })) = some (0, 0x301) := by decide

/-! ### Timers and keys (vectors of 2.6) -/

theorem test_ldVxDt : seen (fun t => (vAt t 2, t.dt)) (run 0xF207 { State.reset with dt := 3 }) = some (3, 2) := by decide
theorem test_ldDtVx : seen (·.dt) (run 0xF115 (withV State.reset [(1, 3)])) = some 2 := by decide
theorem test_ldStVx :
    seen (fun t => (t.st, t.playTone, t.stopTone)) (run 0xF118 (withV State.reset [(1, 1)])) = some (0, true, true) := by
  decide
theorem test_ldStVx_stops :
    seen (fun t => (t.st, t.playTone, t.stopTone)) (run 0xF118 { State.reset with st := 5 }) = some (0, false, true) := by
  decide
theorem test_ldVxK_captures :
    seen (fun t => (vAt t 3, t.waitK)) (run 0xF30A { State.reset with key := 0x0480 }) = some (7, false) := by decide
theorem test_ldVxK_waits :
    seen (fun t => (t.waitK, t.waitX, t.pc)) (run 0xF30A { State.reset with pc := 0x206 }) = some (true, 3, 0x208) := by
  decide
theorem test_waiting_tick_without_a_key :
    seen (fun t => (t.waitK, t.dt, t.pc)) (step (withEvent { State.reset with waitK := true, waitX := 3, dt := 2 }
      (pulse 0 0))) = some (true, 1, 0x200) := by decide
theorem test_waiting_tick_captures :
    seen (fun t => (vAt t 0xF, t.waitK, t.pc)) (step (withEvent { State.reset with waitK := true, waitX := 0xF }
      (pulse 0x0004 0))) = some (2, false, 0x200) := by decide

/-! ### Display (vectors of 2.7) -/

/-- The columns of a row that are set. -/
def columns (r : Nat) (t : State) : List Nat := (List.range 64).filter fun c => fbCell t.fb r c

theorem test_cls :
    seen (fun t => (columns 0 t, t.dirty)) (run 0x00E0 { State.reset with fb := Vector.replicate 32 5 })
      = some ([], true) := by decide
theorem test_drw_glyph_0 :
    seen (fun t => (columns 0 t, columns 1 t, columns 5 t, vAt t 0xF, t.dirty)) (run 0xD015 State.reset)
      = some ([0, 1, 2, 3], [0, 3], [], 0, true) := by decide
theorem test_drw_clips_columns :
    seen (fun t => (columns 0 t, columns 1 t, vAt t 0xF)) (run 0xD015 (withV State.reset [(0, 62)]))
      = some ([62, 63], [62], 0) := by decide
theorem test_drw_collides :
    seen (fun t => (columns 0 t, vAt t 0xF, t.dirty)) (run 0xD011 (withBytes { State.reset with
      fb := (Vector.replicate 32 0).set 0 1, i := 0x300 } 0x300 [0x80])) = some ([], 1, true) := by decide
theorem test_drw_nothing_leaves_dirty :
    seen (fun t => (columns 0 t, vAt t 0xF, t.dirty)) (run 0xD015 (withV State.reset [(0, 64), (0xF, 1)]))
      = some ([], 0, false) := by decide
theorem test_drw_samples_vf_before_writing_it :
    seen (fun t => (columns 0 t, vAt t 0xF)) (run 0xDF01 (withBytes (withV { State.reset with i := 0x300 } [(0xF, 8)])
      0x300 [0x80])) = some ([8], 0) := by decide

/-! ### Faults and the debugger (vectors of 2.8) -/

theorem test_decode_fault :
    seen (fun t => (t.susp, t.cause, t.faultOpcode, t.faultPc, t.pc, t.dt)) (run 0x8008 { State.reset with dt := 5 })
      = some (true, .decodeFault, 0x8008, 0x200, 0x202, 5) := by decide
theorem test_resume :
    seen (fun t => (t.susp, t.cause)) (step (withEvent { State.reset with susp := true, cause := .decodeFault } .resume))
      = some (false, .decodeFault) := by decide
theorem test_single_step :
    seen (fun t => (vAt t 0, t.pc, t.dt, t.susp)) (step (withEvent (withBytes { State.reset with susp := true, dt := 5 }
      0x200 [0x60, 0x05]) (.singleStep 0 0))) = some (5, 0x202, 4, true) := by decide
theorem test_break_comes_first :
    seen (fun t => (t.susp, t.cause, t.pc)) (step (withEvent (withBytes State.reset 0x200 [0x80, 0x08])
      (.pulse 0 0 true false))) = some (true, .break, 0x200) := by decide
theorem test_enable_trace :
    seen (·.trace) (step (withEvent { State.reset with susp := true } .enableTrace)) = some true := by decide
theorem test_trace_port :
    seen (·.traceOut) (run 0x6005 { State.reset with trace := true }) = some (some (0x200, 0x6005)) := by decide
/-- L1.3, pulse 1: the render of a CLS reads DIRTY = 1, and `dirty_clr` then clears it. -/
theorem test_render_of_cls_sees_dirty :
    seen (fun t => (columns 0 t, t.renderDirty, t.dirty)) (step (withEvent (withBytes State.reset 0x200 [0x00, 0xE0])
      (.pulse 0 0 false true))) = some ([], some true, false) := by decide
/-- L1.3, pulse 2: an instruction that does not draw, and a render that reads DIRTY = 0. -/
theorem test_next_render_sees_no_dirty : seen portRender (run 0x6000 State.reset) = some (some (State.reset.fb, false)) := by
  decide
/-- D26: the pulse whose own tick halts the core still takes `dirty_clr` after that tick. -/
theorem test_dirty_clr_after_a_fatal_tick :
    seen (fun t => (t.halt, t.renderDirty, t.dirty)) (step (withEvent (withBytes { State.reset with dirty := true }
      0x200 [0x00, 0xEE]) (.pulse 0 0 false true))) = some (true, some true, false) := by decide
theorem test_dirty_clr :
    seen (·.dirty) (step (withEvent (withBytes State.reset 0x200 [0x00, 0xE0]) (.pulse 0 0 false true))) = some false := by
  decide

/-! ### Reset, launch and the interface (vectors of 2.9) -/

theorem test_reset_pc_and_font :
    State.reset.pc = 0x200 ∧ byteAt State.reset 0 = some 0xF0 ∧ byteAt State.reset 79 = some 0x80 ∧
    byteAt State.reset 80 = none := by decide
theorem test_launch_loads_the_rom :
    (fun t => (byteAt t 0x200, byteAt t 0x201, byteAt t 0x202)) (launch defaultConfig [0x22, 0x00])
      = (some 0x22, some 0x00, none) := by decide
theorem test_ports_of_reset :
    portRunState State.reset = 0 ∧ portCause State.reset = 0 ∧ portTone State.reset = false ∧ portFb State.reset 0 = false ∧
    portTraceValid State.reset = false ∧ dbgV State.reset 5 = some 0 ∧ dbgI State.reset = some 0 ∧
    dbgMem State.reset 0x200 = none := by decide
theorem test_core_runs_a_placed_word :
    seen (fun t => (t.pc, vAt t 0)) (core.step (State.withFetchWord State.reset 16 0x6005)) = some (0x202, 5) := by decide

/-! ### Witnesses: states and operands that meet the hypotheses of the obligations, clause by clause -/

theorem witness_EncodeOfDecodeGivesBack : decodeWord 0xD015 = some (.drw 0 1 5) := by decide
theorem witness_DispatchFollowsTheOpcodeMap :
    (∃ row ∈ opcodeMap, row.op = .shlVxVy ∧ 0x812E &&& row.mask = row.pattern) ∧
    (∀ row ∈ opcodeMap, 0x0123 &&& row.mask ≠ row.pattern) := by decide
theorem witness_FetchIsBigEndian :
    readMem (withBytes { State.reset with pc := 0xFFF } 0xFFF [0x61, 0xF0]) 0xFFF = .ok 0x61 ∧
    readMem (withBytes { State.reset with pc := 0xFFF } 0xFFF [0x61, 0xF0]) (BitVec.ofNat 12 ((0xFFF + 1) % 4096))
      = .ok 0xF0 := by decide
theorem witness_LoadsWriteTheirRegister : readV State.reset 0xF = .ok 0 := by decide
theorem witness_AddConstantWrapsWithoutFlag : readV (withV State.reset [(0xF, 0xFF)]) 0xF = .ok 0xFF := by decide
theorem witness_LogicWritesBitwiseResult :
    readV State.reset 0 = .ok 0 ∧ readV State.reset 0xF = .ok 0 ∧ State.reset.cfg.logicResetsVf = false ∧
    (withCfg State.reset fun c => { c with logicResetsVf := true }).cfg.logicResetsVf = true := by decide
theorem witness_AddWritesCarryThenSum :
    readV (withV State.reset [(1, 0xFF), (2, 1)]) 1 = .ok 0xFF ∧ readV (withV State.reset [(1, 0xFF), (2, 1)]) 2 = .ok 1 := by
  decide
theorem witness_SubAndSubnWriteNoBorrowThenDifference :
    readV (withV State.reset [(1, 7), (2, 7)]) 1 = .ok 7 ∧ readV (withV State.reset [(1, 7), (2, 7)]) 2 = .ok 7 := by decide
theorem witness_ShiftsWriteLostBitThenResult :
    readV (withV State.reset [(1, 5)]) (if State.reset.cfg.shiftSrcVy then 2 else 1) = .ok 5 := by decide
theorem witness_CallPushesReturnAddress :
    (State.Inv { State.reset with sp := 15 } ∧ 15 < State.reset.cfg.stackDepth) ∧
    (State.Inv { State.reset with sp := 16 } ∧ 16 = State.reset.cfg.stackDepth) := by unfold State.Inv; decide
theorem witness_RetPopsIntoPc : 0 < (1 : Nat) ∧ State.reset.sp = 0 := by decide
theorem witness_JumpV0AddsV0 :
    readV (withV State.reset [(0, 0xFF)]) 0 = .ok 0xFF ∧
    (State.reset.cfg.pcOverflow = .wrap ∨ (0xF00#12).toNat + (0xFF#8).toNat < 4096) ∧
    ((withCfg State.reset fun c => { c with pcOverflow := .fault }).cfg.pcOverflow = .fault ∧
      4096 ≤ (0xF01#12).toNat + (0xFF#8).toNat) ∧
    (0xF00#12).toNat + (0xFF#8).toNat < 4096 := by decide
theorem witness_RegisterSkipsAdvanceTwoMore :
    readV (withV State.reset [(1, 7)]) 1 = .ok 7 ∧ readV (withV State.reset [(1, 7)]) 2 = .ok 0 ∧ (7 : Byte) ≠ 0 := by decide
theorem witness_KeySkipsTestTheSnapshot :
    readV (withV { State.reset with key := 0x8000 } [(0, 0x1F)]) 0 = .ok 0x1F ∧
    (0x8000#16).getLsbD ((0x1F#8).toNat % 16) = true := by decide
theorem witness_RetAfterCallReturns :
    State.Inv State.reset ∧ State.reset.sp < State.reset.cfg.stackDepth ∧
    ∃ t, exec (.call 0x300) State.reset = .next t ∧ t.stack = t.stack ∧ t.sp = t.sp :=
  ⟨by unfold State.Inv; decide, by decide, _, rfl, rfl, rfl⟩
theorem witness_AddIndexWraps :
    readI { State.reset with i := 0xFFF } = .ok 0xFFF ∧ readV (withV { State.reset with i := 0xFFF } [(2, 1)]) 2 = .ok 1 := by
  decide
theorem witness_LoadGlyphAddress : readV (withV State.reset [(0, 0xFF)]) 0 = .ok 0xFF := by decide
theorem witness_BcdStoresThreeDigits :
    readV (withV { State.reset with i := 0xFFE } [(5, 123)]) 5 = .ok 123 ∧
    readI (withV { State.reset with i := 0xFFE } [(5, 123)]) = .ok 0xFFE := by decide
theorem witness_BlockStoreWritesMemory :
    readI State.reset = .ok 0 ∧ (∀ k ≤ (0xF#4).toNat, readV State.reset (BitVec.ofNat 4 k) = .ok 0) ∧
    State.reset.cfg.ldstIncI = true ∧
    (withCfg State.reset fun c => { c with ldstIncI := false }).cfg.ldstIncI = false := by decide
theorem witness_BlockLoadWritesRegisters :
    readI State.reset = .ok 0 ∧
    ∀ k ≤ (0xF#4).toNat, readMem State.reset (ea 0 k) = .ok ((defaultFont[k]?).getD 0) := by decide

/-- The reset state after the block store of V0..V3 at 0. -/
def stored : State :=
  match exec (.ldMemVx 3) State.reset with
  | .next t => t
  | .fault _ => State.reset
  | .refused _ => State.reset

theorem witness_BlockLoadAfterStoreGivesBack :
    readI State.reset = .ok 0 ∧ (∀ k ≤ (3#4).toNat, readV State.reset (BitVec.ofNat 4 k) = .ok 0) ∧
    exec (.ldMemVx 3) State.reset = .next stored ∧
    setI stored 0 = { stored with v := (setI stored 0).v, vWritten := (setI stored 0).vWritten, i := 0, iWritten := true } :=
  ⟨by decide, by decide, rfl, rfl⟩
theorem witness_ReadsFollowTheWrittenBits :
    byteAt State.reset 0 = some 0xF0 ∧ byteAt State.reset 0x200 = none ∧ vIsWritten State.reset 0 = true ∧
    vIsWritten { State.reset with vWritten := 0 } 0 = false ∧
    (withCfg State.reset fun c => { c with unwritten := .zero }).cfg.unwritten = .zero ∧
    (seen (fun _ => ()) (run 0x6005 State.reset)).isSome = true := by decide
theorem witness_TimerStepCountsDown :
    nextEvent (withEvent State.reset (.pulse 0 0 true false)) = .pulse 0 0 true false ∧
    (seen (fun _ => ()) (step (withEvent State.reset (.pulse 0 0 true false)))).isSome = true ∧
    runState { State.reset with susp := true } = .suspended ∧ runState { State.reset with halt := true } = .halted := by decide
theorem witness_SetTimersAreDecrementedInTheSameTick : readV (withV State.reset [(1, 1)]) 1 = .ok 1 := by decide
theorem witness_WaitForKeyCapturesOrWaits :
    (∀ j < 15, (0x8000#16).getLsbD j = false) ∧ (0x8000#16).getLsbD 15 = true ∧ (0x0001#16).getLsbD 0 = true ∧
    State.reset.key = 0 := by decide
theorem witness_WaitingTickCapturesLowestKey :
    nextEvent (withEvent { State.reset with waitK := true } (.pulse 0x8000 0 false true)) = .pulse 0x8000 0 false true ∧
    runState (withEvent { State.reset with waitK := true } (.pulse 0x8000 0 false true)) = .awaitingKey ∧
    (∀ j < 15, (0x8000#16).getLsbD j = false) ∧ (0x8000#16).getLsbD 15 = true ∧
    runState (withEvent { State.reset with waitK := true } (.pulse 0 0 true false)) = .awaitingKey := by decide
theorem witness_DrawInvertsCoveredCells :
    readV State.reset 0 = .ok 0 ∧ readV State.reset 1 = .ok 0 ∧ ((5 : Nibble) ≠ 0 → readI State.reset = .ok 0) ∧
    (∀ k < (5#4).toNat, readMem State.reset (ea 0 k) = .ok ((defaultFont[k]?).getD 0)) ∧
    SpriteCovers (fun k => (defaultFont[k]?).getD 0) 0 0 5 4 3 ∧ ¬ SpriteCovers (fun k => (defaultFont[k]?).getD 0) 0 0 5 4 4 := by
  unfold SpriteCovers; decide
theorem witness_DrawingTwiceRestoresTheFramebuffer :
    (0 : Nibble) ≠ 0xF ∧ (1 : Nibble) ≠ 0xF ∧
    ∃ t u, exec (.drw 0 1 1) State.reset = .next t ∧ exec (.drw 0 1 1) t = .next u :=
  ⟨by decide, by decide, _, _, rfl, rfl⟩

/-- The reset state with `6005` at 0x200 and a plain pulse scheduled. -/
def atLoad : State := withEvent (withBytes State.reset 0x200 [0x60, 0x05]) (pulse 0 0)

/-- `atLoad` with other bytes at 0x200. -/
def atWord (hi lo : Byte) : State := withEvent (withBytes State.reset 0x200 [hi, lo]) (pulse 0 0)

theorem witness_StepRunsTheDecodedInstruction :
    nextEvent atLoad = .pulse 0 0 false false ∧ runState atLoad = .running ∧ readMem atLoad atLoad.pc = .ok 0x60 ∧
    readMem atLoad (atLoad.pc + 1) = .ok 0x05 := by decide
theorem witness_StepRunsTheDecodedInstruction_decode :
    FetchInBounds atLoad ∧ decodeBytes [0x60, 0x05] = .ok (.ldVxKk 0 5, []) := ⟨by unfold FetchInBounds; decide, rfl⟩
theorem witness_TracePresentsTheExecutedWord :
    nextEvent { atLoad with trace := true } = .pulse 0 0 false false ∧
    seen (·.trace) (step { atLoad with trace := true }) = some true ∧
    runState { atLoad with trace := true } = .running ∧ FetchInBounds { atLoad with trace := true } ∧
    runState { atLoad with waitK := true } = .awaitingKey ∧ atLoad.trace = false := by unfold FetchInBounds; decide
theorem witness_DirtyClearedOnlyByTheAdapter :
    (State.reset.halt = false ∧
      ∃ t, exec (.ldI 0) { State.reset with dirty := true } = .next t ∧ State.dirty { State.reset with dirty := true } = true) ∧
    (seen (·.dirty) (step (withEvent { State.reset with halt := true, dirty := true } (.pulse 0 0 false true))) = some true ∧
      seen (·.dirty) (step (withEvent { State.reset with susp := true, dirty := true } (.pulse 0 0 false true)))
        = some false) :=
  ⟨⟨rfl, _, rfl, rfl⟩, by decide⟩

/-- `00E0`, `6000` at 0x200, DIRTY clear, with two pulses that carry `dirty_clr`. -/
def clsThenLoad : State :=
  { withBytes State.reset 0x200 [0x00, 0xE0, 0x60, 0x00] with events := [.pulse 0 0 false true, .pulse 0 0 false true] }

theorem witness_RenderAfterClsSeesDirtyOnce :
    nextEvent clsThenLoad = .pulse 0 0 false true ∧ runState clsThenLoad = .running ∧ FetchInBounds clsThenLoad ∧
    fetchWord clsThenLoad = .ok 0x00E0 ∧ decodeWord 0x00E0 = some (.cls 0) ∧
    seen (fun t => (nextEvent t, seen (·.pc) (step t))) (step clsThenLoad)
      = some (.pulse 0 0 false true, some 0x204) ∧
    seen (fun t => fetchWord t) (step clsThenLoad) = some (.ok 0x6000) ∧ decodeWord 0x6000 = some (.ldVxKk 0 0) ∧
    (seen (fun t => decide (t.cfg.pcOverflow = .wrap)) (step clsThenLoad)) = some true ∧
    Instr.op (.ldVxKk 0 0) ∉ [Op.cls, .drw] := by unfold FetchInBounds; decide
theorem witness_IllegalWordSuspends :
    nextEvent (atWord 0x80 0x08) = .pulse 0 0 false false ∧ runState (atWord 0x80 0x08) = .running ∧
    FetchInBounds (atWord 0x80 0x08) ∧ fetchWord (atWord 0x80 0x08) = .ok 0x8008 ∧ decodeWord 0x8008 = none := by
  unfold FetchInBounds; decide
theorem witness_StackFaultsHaltWithoutTimerStep :
    (fetchWord (atWord 0x00 0xEE) = .ok 0x00EE ∧ decodeWord 0x00EE = some (.ret 0) ∧ (atWord 0x00 0xEE).sp = 0) ∧
    (fetchWord { atWord 0x23 0x00 with sp := 16 } = .ok 0x2300 ∧ decodeWord 0x2300 = some (.call 0x300) ∧
      16 = (atWord 0x23 0x00).cfg.stackDepth) ∧
    runState { atWord 0x23 0x00 with sp := 16 } = .running := by decide

/-- The reset state under `PC_OVERFLOW = fault`, with `pc` where given and a plain pulse scheduled. -/
def nearEnd (pc : Addr) : State := withEvent (withCfg { State.reset with pc := pc } fun c => { c with pcOverflow := .fault })
  (pulse 0 0)

theorem witness_PcPastTheEndFaultsInThreePlaces :
    (nextEvent (nearEnd 0xFFE) = .pulse 0 0 false false ∧ runState (nearEnd 0xFFE) = .running ∧
      (nearEnd 0xFFE).cfg.pcOverflow = .fault ∧ 0xFFE ≤ (nearEnd 0xFFE).pc.toNat) ∧
    (0x1000 ≤ (nearEnd 0xFFE).pc.toNat + 2 ∧ readV (nearEnd 0xFFE) 0 = .ok 0 ∧ readV (nearEnd 0xFFE) 1 = .ok 0) ∧
    (readV (withV (nearEnd 0x200) [(0, 1)]) 0 = .ok 1 ∧ 0x1000 ≤ (0xFFF#12).toNat + (1#8).toNat) ∧
    (atLoad.cfg.pcOverflow = .wrap ∧ seen (·.cause) (step atLoad) = some .none ∧ atLoad.cause ≠ .outOfBoundsAccess) := by
  decide

/-- The reset state with a break request scheduled. -/
def broken (s : State) : State := withEvent s (.pulse 0 0 true false)

theorem witness_BreakSuspendsBeforeTheTick :
    nextEvent (broken State.reset) = .pulse 0 0 true false ∧ runState (broken State.reset) = .running ∧
    runState (broken { State.reset with waitK := true }) = .awaitingKey ∧
    runState (broken { State.reset with susp := true }) = .suspended ∧
    runState (broken { State.reset with halt := true }) = .halted := by decide
theorem witness_ResumeReturnsToTheUnderlyingState :
    nextEvent (withEvent { State.reset with susp := true } .resume) = .resume ∧
    runState (withEvent { State.reset with susp := true } .resume) = .suspended ∧
    runState (withEvent { State.reset with halt := true } .resume) = .halted := by decide
theorem witness_DebuggerCommandsActOnlyWhileSuspended :
    (nextEvent (withEvent { State.reset with susp := true } .enableTrace) = .enableTrace ∧
      runState (withEvent { State.reset with susp := true } .enableTrace) = .suspended) ∧
    nextEvent (withEvent State.reset .memdump) = .memdump ∧
    nextEvent (withEvent State.reset .printRegisters) = .printRegisters ∧
    (nextEvent (withEvent State.reset .resume) = .resume ∧ nextEvent (withEvent State.reset (.singleStep 1 2))
      = .singleStep 1 2 ∧ runState (withEvent State.reset .enableTrace) ≠ .suspended) := by decide

/-- `atLoad`, suspended, with the debugger's `step` scheduled. -/
def stepped (keys : BitVec 16) : State := withEvent { atLoad with susp := true } (.singleStep keys 0)

theorem witness_SingleStepRunsOneTick :
    nextEvent (stepped 0) = .singleStep 0 0 ∧ runState (stepped 0) = .suspended ∧ (stepped 0).waitK = false ∧
    FetchInBounds (stepped 0) ∧ fetchWord (stepped 0) = .ok 0x6005 ∧ decodeWord 0x6005 = some (.ldVxKk 0 5) ∧
    (seen (fun _ => ()) (exec (.ldVxKk 0 5) (atExecute (stepped 0) 0 0 0x6005))).isSome = true := by
  unfold FetchInBounds; decide
theorem witness_SingleStepRunsOneTick_waiting :
    runState { stepped 0x8000 with waitK := true } = .suspended ∧ (0x8000#16).getLsbD 15 = true ∧
    (∀ j < 15, (0x8000#16).getLsbD j = false) ∧ runState { stepped 0 with halt := true } = .halted ∧
    nextEvent { stepped 0 with halt := true } = .singleStep 0 0 := by decide
theorem witness_HaltedIsTerminal : runState { State.reset with halt := true } = .halted := by decide
theorem witness_SuspendedRunsNoTick :
    runState (withEvent { State.reset with susp := true } (.pulse 1 2 true true)) = .suspended ∧
    nextEvent (withEvent { State.reset with susp := true } (.pulse 1 2 true true)) = .pulse 1 2 true true := by decide
theorem witness_LaunchLoadsTheRom :
    (List.replicate 0xE00 (0 : Byte)).length ≤ 0xE00 ∧ 0xE00 < (List.replicate 0xE01 (0 : Byte)).length ∧
    ∃ s : State, s = { launch defaultConfig (List.replicate 0xE01 0) with
      events := s.events, eventNo := s.eventNo, renderDirty := s.renderDirty } :=
  ⟨by rw [List.length_replicate], by rw [List.length_replicate]; omega, by
    generalize launch defaultConfig (List.replicate 0xE01 0) = s
    exact ⟨s, rfl⟩⟩
theorem witness_StepKeepsMemoryAndStackInvariant :
    State.Inv atLoad ∧ (seen (fun _ => ()) (step atLoad)).isSome = true := by unfold State.Inv; decide
theorem witness_StepKeepsCauseInvariant :
    State.CauseInv (atWord 0x80 0x08) ∧ (seen (fun _ => ()) (step (atWord 0x80 0x08))).isSome = true := by
  unfold State.CauseInv; decide
theorem witness_RegisterReadsNeverEndARun :
    State.RegsReadable State.reset ∧ State.RegsReadable atLoad ∧
    stop (step State.reset) = some (.unwrittenRead (.mem 0x200)) ∧ (seen (fun _ => ()) (step atLoad)).isSome = true := by
  unfold State.RegsReadable; decide
theorem witness_EveryInstructionIsTotal :
    State.AllReadable (withCfg State.reset fun c => { c with unwritten := .zero }) := .inl rfl
theorem witness_OnlyNamedInstructionsWriteMemoryStackAndIndex :
    ∃ t, exec (.jp 0) State.reset = .next t ∧ Instr.op (.jp 0) ∉ [Op.ldBVx, .ldMemVx] ∧
      Instr.op (.jp 0) ∉ [Op.call, .ret] ∧ Instr.op (.jp 0) ∉ [Op.ldI, .addIVx, .ldFVx, .ldMemVx, .ldVxMem] :=
  ⟨_, rfl, by decide, by decide, by decide⟩
theorem witness_OnlyNamedInstructionsWriteDisplayAndTimers :
    ∃ t, exec (.jp 0) State.reset = .next t ∧ Instr.op (.jp 0) ∉ [Op.cls, .drw] ∧ Instr.op (.jp 0) ≠ .ldDtVx ∧
      Instr.op (.jp 0) ≠ .ldStVx ∧ Instr.op (.jp 0) ≠ .ldVxK :=
  ⟨_, rfl, by decide, by decide, by decide, by decide⟩
theorem witness_OnlyNamedInstructionsWriteRegistersAndControl :
    ∃ t, exec (.ldI 0) State.reset = .next t ∧ Instr.op (.ldI 0) ∉ [Op.ldVxKk, .addVxKk, .ldVxVy, .orVxVy, .andVxVy,
      .xorVxVy, .addVxVy, .subVxVy, .shrVxVy, .subnVxVy, .shlVxVy, .rndVxKk, .ldVxDt, .ldVxK, .ldVxMem, .drw] ∧
      Instr.op (.ldI 0) ∉ [Op.ret, .jp, .call, .jpV0, .seVxKk, .sneVxKk, .seVxVy, .sneVxVy, .skp, .sknp] :=
  ⟨_, rfl, by decide, by decide⟩
theorem witness_FaultEntryIsPrecise :
    State.reset.halt = false ∧ ∃ t, exec (.ret 0) State.reset = .next t ∧ t.halt = true := ⟨rfl, _, rfl, rfl⟩

end Sys2Proof.Tests
end

section
/-! PROOFS. Memory and fetch (spec/20_memory.md): what a byte write changes, and the word that the fetch answers. -/

namespace Sys2Proof.Machine

/-! ### One byte written (R63) -/

/-- A byte write reaches no address but its own. -/
theorem storeByte_keepsBytes (s : State) (a : Addr) (b : Byte) :
    KeepsBytes s (storeByte s a b) (fun p => p = a) :=
  fun _ h => byteAt_storeByte_other s h b

/-- Settles O27: the written byte, the other bytes, and the frame outside memory. -/
theorem storeWritesOneByte : Obligations.StoreWritesOneByte :=
  fun s a b => ⟨byteAt_storeByte_self s a b, storeByte_keepsBytes s a b, rfl⟩

/-! ### The fetched word (R64) -/

/-- The first byte is bits 15-8 of the word and the second is bits 7-0. -/
theorem wordOf_toNat (hi lo : Byte) : (wordOf hi lo).toNat = 256 * hi.toNat + lo.toNat := by
  have disjoint : hi.toNat <<< 8 + lo.toNat = hi.toNat <<< 8 ||| lo.toNat := Nat.shiftLeft_add_eq_or_of_lt lo.isLt _
  rw [wordOf, BitVec.toNat_append, ← disjoint, Nat.shiftLeft_eq]
  omega

/-- The address after `a` wraps at the end of memory: 12-bit addition is addition mod 4096. -/
theorem addr_succ_eq_ofNat (a : Addr) : a + 1 = BitVec.ofNat 12 ((a.toNat + 1) % 4096) := by
  apply BitVec.eq_of_toNat_eq
  simp

/-- Where both bytes can be read, the fetch answers their word. -/
theorem fetchWord_of_readMem {s : State} {hi lo : Byte} (hhi : readMem s s.pc = .ok hi)
    (hlo : readMem s (s.pc + 1) = .ok lo) : fetchWord s = .ok (wordOf hi lo) := by
  simp only [fetchWord, hhi, hlo]

/-- Settles O5: the fetch reads at `pc` and at the wrapped next address, and its word has the first byte on top. -/
theorem fetchIsBigEndian : Obligations.FetchIsBigEndian := by
  intro s hi lo hhi hlo
  rw [← addr_succ_eq_ofNat] at hlo
  exact ⟨wordOf hi lo, fetchWord_of_readMem hhi hlo, wordOf_toNat hi lo⟩

end Sys2Proof.Machine
end

section
/-! PROOFS. The dispatch (spec/30_encoding.md R84 to R94): the rows that a primary slot stands for, their agreement with
the opcode map, and the words that miss. -/

namespace Sys2Proof

/-! ### The class of a word -/

/-- A word is its class and its low twelve bits. -/
theorem formatNNN_fieldsOf (w : Word) : formatNNN (fieldsOf w).cls (fieldsOf w).nnn = w := by
  have halves := BitVec.extractLsb'_append_extractLsb'_eq_extractLsb' (x := w) (start₁ := 0) (len₁ := 12)
    (start₂ := 12) (len₂ := 4) rfl
  exact halves.trans BitVec.extractLsb'_eq_self

/-- The class mask keeps the class and clears the rest. -/
theorem and_classMask (w : Word) : w &&& 0xF000 = formatNNN (fieldsOf w).cls 0 := by
  conv_lhs => rw [← formatNNN_fieldsOf w]
  exact Laws.RowMatch.formatNNN_mask _ _

/-- A mask that covers bits 15-12 keeps the class. -/
theorem fieldsOf_and_cls (w : Word) {m : Word} (hm : (fieldsOf m).cls = 0xF) :
    (fieldsOf (w &&& m)).cls = (fieldsOf w).cls :=
  calc (fieldsOf (w &&& m)).cls
    _ = (fieldsOf w).cls &&& (fieldsOf m).cls := BitVec.extractLsb'_and
    _ = (fieldsOf w).cls &&& 0xF := by rw [hm]
    _ = (fieldsOf w).cls := BitVec.and_allOnes

/-! ### The equality match of a key (R93) -/

/-- The match misses exactly where the key is not in the table. -/
theorem lookupKey_eq_none_iff {key : Word} {table : List (Word × Op)} :
    lookupKey key table = none ↔ key ∉ table.map Prod.fst := by
  induction table with
  | nil => simp [lookupKey]
  | cons e rest ih => by_cases h : key = e.1 <;> simp_all [lookupKey]

/-- In a table without repeated keys the match selects exactly the entries of the key. -/
theorem lookupKey_eq_some_iff {key : Word} {op : Op} {table : List (Word × Op)} (hd : (table.map Prod.fst).Nodup) :
    lookupKey key table = some op ↔ (key, op) ∈ table := by
  induction table with
  | nil => simp [lookupKey]
  | cons e rest ih =>
    obtain ⟨hfresh, hrest⟩ := List.nodup_cons.mp hd
    by_cases h : key = e.1
    · have hnot : (e.1, op) ∉ rest := fun hm => hfresh (List.mem_map.mpr ⟨_, hm, rfl⟩)
      simp [lookupKey, h, hnot, Prod.ext_iff, eq_comm]
    · simp [lookupKey, h, ih hrest, Prod.ext_iff]

/-! ### The sixteen primary slots (R84, R85, R90) -/

/-- Classes 0, 8, E and F have a table; every other class has one instruction. -/
theorem primarySlot_cases : ∀ c : Nibble,
    c = 0x0 ∧ primarySlot c = .secondary 0xF0FF class0Table ∨
    c = 0x8 ∧ primarySlot c = .secondary 0xF00F class8Table ∨
    c = 0xE ∧ primarySlot c = .secondary 0xF0FF classETable ∨
    c = 0xF ∧ primarySlot c = .secondary 0xF0FF classFTable ∨
    (c ≠ 0x0 ∧ c ≠ 0x8 ∧ c ≠ 0xE ∧ c ≠ 0xF) ∧ ∃ row ∈ opcodeMap, primarySlot c = .single row.op := by
  decide

/-- No table repeats a key. -/
theorem primarySlot_keys_nodup {c : Nibble} {mask : Word} {table : List (Word × Op)}
    (h : primarySlot c = .secondary mask table) : (table.map Prod.fst).Nodup := by
  rcases primarySlot_cases c with ⟨-, e⟩ | ⟨-, e⟩ | ⟨-, e⟩ | ⟨-, e⟩ | ⟨-, row, -, e⟩ <;>
    cases e.symm.trans h <;> decide

theorem dispatch_of_single {w : Word} {op : Op} (h : primarySlot (fieldsOf w).cls = .single op) :
    dispatch w = some op := by
  simp only [dispatch, h]

theorem dispatch_of_secondary {w mask : Word} {table : List (Word × Op)}
    (h : primarySlot (fieldsOf w).cls = .secondary mask table) : dispatch w = lookupKey (w &&& mask) table := by
  simp only [dispatch, h]

/-- The dispatch misses exactly where the slot has a table and the masked key is not in it (R91). -/
theorem dispatch_eq_none_iff (w : Word) : dispatch w = none ↔
    ((fieldsOf w).cls = 0x0 ∧ (w &&& 0xF0FF) ∉ class0Table.map Prod.fst) ∨
    ((fieldsOf w).cls = 0x8 ∧ (w &&& 0xF00F) ∉ class8Table.map Prod.fst) ∨
    ((fieldsOf w).cls = 0xE ∧ (w &&& 0xF0FF) ∉ classETable.map Prod.fst) ∨
    ((fieldsOf w).cls = 0xF ∧ (w &&& 0xF0FF) ∉ classFTable.map Prod.fst) := by
  rcases primarySlot_cases (fieldsOf w).cls with
    ⟨hc, hs⟩ | ⟨hc, hs⟩ | ⟨hc, hs⟩ | ⟨hc, hs⟩ | ⟨⟨h0, h8, hE, hF⟩, row, -, hs⟩
  · simp [dispatch_of_secondary hs, lookupKey_eq_none_iff, hc]
  · simp [dispatch_of_secondary hs, lookupKey_eq_none_iff, hc]
  · simp [dispatch_of_secondary hs, lookupKey_eq_none_iff, hc]
  · simp [dispatch_of_secondary hs, lookupKey_eq_none_iff, hc]
  · simp only [dispatch_of_single hs, h0, h8, hE, hF, false_and, or_false, reduceCtorEq]

theorem decodeWord_eq_none_iff (w : Word) : decodeWord w = none ↔ dispatch w = none :=
  Option.map_eq_none_iff

/-! ### The rows of the opcode map (R94) -/

/-- The rows of the map that the slot of class `c` stands for: one row under the class mask, or a row for each entry of
its table. -/
def Slot.rows (c : Nibble) : Slot → List OpcodeRow
  | .single op => [⟨op, formatNNN c 0, 0xF000⟩]
  | .secondary mask table => table.map fun e => ⟨e.2, e.1, mask⟩

/-- The rows of the slot that class `c` selects. -/
def rowsOfClass (c : Nibble) : List OpcodeRow := (primarySlot c).rows c

theorem mem_opcodeMap_of_mem_rowsOfClass : ∀ c : Nibble, ∀ row ∈ rowsOfClass c, row ∈ opcodeMap := by decide

/-- Each row stands under the class of its pattern, and its mask covers the class. -/
theorem opcodeMap_row_class : ∀ row ∈ opcodeMap,
    row ∈ rowsOfClass (fieldsOf row.pattern).cls ∧ (fieldsOf row.mask).cls = 0xF := by
  decide

/-- Two rows whose patterns agree under both masks are the same row. -/
theorem opcodeMap_disjoint : ∀ p ∈ opcodeMap, ∀ q ∈ opcodeMap,
    p.pattern &&& q.mask = q.pattern &&& p.mask → p = q := by
  decide

/-- The dispatch selects what the rows of the word's own class select. -/
theorem dispatch_eq_some_iff_rowsOfClass (w : Word) (op : Op) : dispatch w = some op ↔
    ∃ row ∈ rowsOfClass (fieldsOf w).cls, row.op = op ∧ w &&& row.mask = row.pattern := by
  cases hs : primarySlot (fieldsOf w).cls with
  | single o =>
    simp only [dispatch_of_single hs, rowsOfClass, hs, Slot.rows, List.mem_singleton, exists_eq_left, and_classMask,
      Option.some.injEq, and_true]
  | secondary mask table =>
    rw [dispatch_of_secondary hs, lookupKey_eq_some_iff (primarySlot_keys_nodup hs)]
    simp [rowsOfClass, hs, Slot.rows]

/-- A word matches a row of the map only under its own class, so the class's rows are the whole map to it. -/
theorem mem_rowsOfClass_iff {w : Word} {row : OpcodeRow} (h : w &&& row.mask = row.pattern) :
    row ∈ rowsOfClass (fieldsOf w).cls ↔ row ∈ opcodeMap := by
  refine ⟨mem_opcodeMap_of_mem_rowsOfClass _ row, fun hrow => ?_⟩
  obtain ⟨hmem, hmask⟩ := opcodeMap_row_class row hrow
  rwa [← h, fieldsOf_and_cls w hmask] at hmem

/-- The dispatch selects what the rows of the map select. -/
theorem dispatch_eq_some_iff (w : Word) (op : Op) :
    dispatch w = some op ↔ ∃ row ∈ opcodeMap, row.op = op ∧ w &&& row.mask = row.pattern := by
  rw [dispatch_eq_some_iff_rowsOfClass]
  exact exists_congr fun row => and_congr_left fun ⟨_, h⟩ => mem_rowsOfClass_iff h

/-- A word matches at most one row: under both masks it would show both patterns. -/
theorem opcodeMap_match_unique {w : Word} {p q : OpcodeRow} (hp : p ∈ opcodeMap) (hq : q ∈ opcodeMap)
    (hwp : w &&& p.mask = p.pattern) (hwq : w &&& q.mask = q.pattern) : p = q := by
  apply opcodeMap_disjoint p hp q hq
  rw [← hwp, ← hwq, BitVec.and_assoc, BitVec.and_assoc, BitVec.and_comm p.mask]

/-- Settles O4: the map and the dispatch agree row by row, and a word without a row has no operation to select. -/
theorem dispatchFollowsTheOpcodeMap : Obligations.DispatchFollowsTheOpcodeMap := by
  refine fun w => ⟨dispatch_eq_some_iff w, fun p hp q hq => opcodeMap_match_unique hp hq, fun hmiss => ?_⟩
  refine Option.eq_none_iff_forall_ne_some.mpr fun op hop => ?_
  obtain ⟨row, hrow, -, hmatch⟩ := (dispatch_eq_some_iff w op).mp hop
  exact hmiss row hrow hmatch

end Sys2Proof
end

section
/-! PROOFS. A pulse on a running core (spec/40_cycle_driver.md R120, R121, R126), and the tick of an illegal word
(spec/60_exceptions.md R331). -/

namespace Sys2Proof.Machine

/-! ### The step of a pulse while Running -/

theorem runState_eq_running_iff (s : State) :
    runState s = .running ↔ s.halt = false ∧ s.susp = false ∧ s.waitK = false := by
  unfold runState
  cases s.halt <;> cases s.susp <;> cases s.waitK <;> simp

theorem fetchOutOfBounds_eq_false_iff (s : State) : fetchOutOfBounds s = false ↔ FetchInBounds s := by
  simp [fetchOutOfBounds, FetchInBounds]

/-- A running tick whose fetch answers `w` executes `w` on the state after the fetch. -/
theorem runningTick_of_fetchWord {s : State} {w : Word} (hb : FetchInBounds s) (hw : fetchWord s = .ok w) :
    runningTick s = runWord s.st (beginWord w s) := by
  simp [runningTick, (fetchOutOfBounds_eq_false_iff s).mpr hb, hw]

/-- A pulse without a break on a running core is the word that the fetch answers, executed, and then the render. -/
theorem step_of_running_pulse {s : State} {keys : BitVec 16} {rnd : Byte} {clr : Bool} {w : Word}
    (he : nextEvent s = .pulse keys rnd false clr) (hr : runState s = .running) (hb : FetchInBounds s)
    (hw : fetchWord s = .ok w) : step s = renderAfter clr (runWord s.st (atExecute s keys rnd w)) := by
  obtain ⟨hhalt, -, hwait⟩ := (runState_eq_running_iff s).mp hr
  have htick : pulseTick keys rnd false (beginEvent s) = runWord s.st (atExecute s keys rnd w) :=
    calc pulseTick keys rnd false (beginEvent s)
      _ = underlyingTick keys rnd (beginEvent s) := by
        have hr' : runState (beginEvent s) = .running := hr
        simp [pulseTick, hr']
      _ = runningTick (latchInputs keys rnd (beginEvent s)) := by simp [underlyingTick, hwait]
      _ = runWord s.st (atExecute s keys rnd w) := runningTick_of_fetchWord hb hw
  simp [step, takeEvent, he, takePulse, htick, hhalt]

/-! ### The illegal word (R91, R331) -/

/-- A DecodeFault writes the latch and SUSP, and nothing else. -/
theorem raiseFault_decodeFault (s : State) : raiseFault .decodeFault s =
    { s with cause := .decodeFault, faultOpcode := s.curWord, faultPc := s.curPc, susp := true } := by
  simp [enterFault, Cause.fatal, Cause.recoverable]

/-- A word that decodes to nothing raises DecodeFault, and the tick ends there: no timer step. -/
theorem runWord_of_decodeWord_none {s : State} (st0 : Byte) (h : decodeWord s.curWord = none) :
    runWord st0 s = .next (raiseFault .decodeFault s) := by
  simp only [runWord, h]

/-- Settles O41: the words that miss the dispatch, and the pulse that executes one. -/
theorem illegalWordSuspends : Obligations.IllegalWordSuspends := by
  refine ⟨fun w => (decodeWord_eq_none_iff w).trans (dispatch_eq_none_iff w), ?_⟩
  intro s keys rnd clr w he hr hb hw hd
  have hd' : decodeWord (atExecute s keys rnd w).curWord = none := hd
  rw [step_of_running_pulse he hr hb hw, runWord_of_decodeWord_none s.st hd', raiseFault_decodeFault]
  rfl

end Sys2Proof.Machine
end

section
/-! PROOFS. The word of an instruction (spec/30_encoding.md R81, R82): the decoder reads back the fields of each layout, so
a word that matches the row of its instruction decodes to that instruction. -/

namespace Sys2Proof

/-! ### The fields of a layout -/

@[simp] theorem fieldsOf_formatNNN_nnn (c : Nibble) (nnn : Addr) : (fieldsOf (formatNNN c nnn)).nnn = nnn :=
  BitVec.extractLsb'_append_eq_right

@[simp] theorem fieldsOf_formatXKK_x (c x : Nibble) (kk : Byte) : (fieldsOf (formatXKK c x kk)).x = x :=
  (BitVec.extractLsb'_append_eq_of_le (by decide)).trans BitVec.extractLsb'_append_eq_right

@[simp] theorem fieldsOf_formatXKK_kk (c x : Nibble) (kk : Byte) : (fieldsOf (formatXKK c x kk)).kk = kk :=
  BitVec.extractLsb'_append_eq_right

@[simp] theorem fieldsOf_formatXYN_x (c x y n : Nibble) : (fieldsOf (formatXYN c x y n)).x = x :=
  ((BitVec.extractLsb'_append_eq_of_le (by decide)).trans (BitVec.extractLsb'_append_eq_of_le (by decide))).trans
    BitVec.extractLsb'_append_eq_right

@[simp] theorem fieldsOf_formatXYN_y (c x y n : Nibble) : (fieldsOf (formatXYN c x y n)).y = y :=
  (BitVec.extractLsb'_append_eq_of_le (by decide)).trans BitVec.extractLsb'_append_eq_right

@[simp] theorem fieldsOf_formatXYN_n (c x y n : Nibble) : (fieldsOf (formatXYN c x y n)).n = n :=
  BitVec.extractLsb'_append_eq_right

/-- The operation of an instruction takes from its word the operands that the encoder wrote there. -/
theorem assemble_fieldsOf_encode (i : Instr) : assemble (fieldsOf (encode i)) i.op = i := by
  cases i <;> simp [assemble, encode, Instr.op]

/-! ### Decoding an encoded instruction -/

/-- The word of an instruction that matches its row of the map decodes to that instruction. -/
theorem decodeWord_of_encode_eq {w : Word} {i : Instr} (h : Laws.RowMatch.Statement i) (hw : encode i = w) :
    decodeWord w = some i := by
  have hop : dispatch (encode i) = some i.op := (dispatch_eq_some_iff _ _).mpr h
  rw [← hw, decodeWord, hop, Option.map_some, assemble_fieldsOf_encode]

end Sys2Proof
end

section
/-! PROOFS. Control flow, the call stack and the skip family (spec/41_control_flow.md): the frames of a jump and of a fatal
fault, what each of the ten instructions answers, and the six statements about them. -/

namespace Sys2Proof.Machine

open Laws

/-! ### Frames -/

/-- Writing `pc` changes `pc` alone. -/
theorem onlyPc_setPc (s : State) (a : Addr) : OnlyPc s (setPc s a) :=
  ⟨rfl, fun _ _ => ⟨rfl, rfl⟩, fun _ _ => rfl⟩

/-- A fatal fault of the current word writes the latch and HALT, and leaves SUSP (R339, R341). -/
theorem raiseFault_of_fatal {c : Cause} (s : State) (hf : c.fatal = true) : raiseFault c s = haltedBy c s := by
  have hr : c.recoverable = false := by cases c <;> revert hf <;> decide
  simp [enterFault, haltedBy, hf, hr]

/-! ### The program counter (R25, R156, R157) -/

theorem goTo_of_inBounds {s : State} {t : Nat} (h : ¬ (s.cfg.pcOverflow = .fault ∧ 0x1000 ≤ t)) :
    goTo s t = setPc s (BitVec.ofNat 12 t) :=
  if_neg h

theorem goTo_of_outOfBounds {s : State} {t : Nat} (h : s.cfg.pcOverflow = .fault ∧ 0x1000 ≤ t) :
    goTo s t = haltedBy .outOfBoundsAccess s :=
  (if_pos h).trans (raiseFault_of_fatal s rfl)

/-- A jump to `t` lands where R25 says and touches no register and no byte of memory. -/
theorem jumps_goTo (s : State) (t : Nat) : Jumps s (goTo s t) t := by
  by_cases h : s.cfg.pcOverflow = .fault ∧ 0x1000 ≤ t
  · rw [goTo_of_outOfBounds h]
    exact ⟨(if_pos h).symm, fun _ _ => ⟨rfl, rfl⟩, fun _ _ => rfl⟩
  · have hmod : BitVec.ofNat 12 (t % 4096) = BitVec.ofNat 12 t := BitVec.eq_of_toNat_eq (by simp)
    rw [goTo_of_inBounds h]
    refine ⟨?_, fun _ _ => ⟨rfl, rfl⟩, fun _ _ => rfl⟩
    rw [jumpedTo, if_neg h, hmod, setPc]

/-- The skip of R157 on a condition that the core's test decides. -/
theorem skips_skipIf (s : State) {c : Bool} {P : Prop} (h : c = true ↔ P) : Skips s (skipIf c s) P := by
  cases c
  · exact ⟨fun hp => absurd (h.mpr hp) Bool.false_ne_true, fun _ => rfl⟩
  · exact ⟨fun _ => jumps_goTo s _, fun hp => absurd (h.mp rfl) hp⟩

/-! ### The stack (R151, R152) -/

/-- An entry written within the list reads as what was written, and every other entry reads as before. -/
theorem stackAt_of_stack_set {s t : State} {k : Nat} {a : Addr} (ht : t.stack = s.stack.set k a)
    (hk : k < s.stack.length) (j : Nat) : stackAt t j = if j = k then a else stackAt s j := by
  by_cases h : j = k
  · subst h; simp [stackAt, ht, hk]
  · simp [stackAt, ht, h, Ne.symm h]

/-- CALL below the capacity (R154). -/
theorem exec_call_of_sp_ne {s : State} (nnn : Addr) (h : s.sp ≠ s.cfg.stackDepth) :
    exec (.call nnn) s = .next { s with stack := s.stack.set s.sp s.pc, sp := s.sp + 1, pc := nnn } := by
  rcases pushThenJump_cases s s.pc nnn with ⟨hfull, -⟩ | ⟨-, e⟩
  · exact absurd hfull h
  · exact congrArg Host.Outcome.next e

/-- CALL at the capacity (R154). -/
theorem exec_call_of_full {s : State} (nnn : Addr) (h : s.sp = s.cfg.stackDepth) :
    exec (.call nnn) s = .next (haltedBy .stackOverflow s) := by
  rcases pushThenJump_cases s s.pc nnn with ⟨-, e⟩ | ⟨hroom, -⟩
  · exact congrArg Host.Outcome.next (e.trans (raiseFault_of_fatal s rfl))
  · exact absurd h hroom

/-- RET from a stack that holds an entry (R155). -/
theorem exec_ret_of_sp_ne_zero {s : State} (n : Nibble) (h : s.sp ≠ 0) :
    exec (.ret n) s = .next { s with sp := s.sp - 1, pc := stackAt s (s.sp - 1) } := by
  rcases popToPc_cases s with ⟨hempty, -⟩ | ⟨-, e⟩
  · exact absurd hempty h
  · exact congrArg Host.Outcome.next e

/-- RET from an empty stack (R155). -/
theorem exec_ret_of_empty {s : State} (n : Nibble) (h : s.sp = 0) :
    exec (.ret n) s = .next (haltedBy .stackUnderflow s) := by
  rcases popToPc_cases s with ⟨-, e⟩ | ⟨hsome, -⟩
  · exact congrArg Host.Outcome.next (e.trans (raiseFault_of_fatal s rfl))
  · exact absurd h hsome

/-- Settles O14: below the capacity the entry at SP is the one written, and at the capacity nothing is. -/
theorem callPushesReturnAddress : Obligations.CallPushesReturnAddress := by
  refine fun s nnn => ⟨decodeWord_of_encode_eq (RowMatch.call nnn) rfl, fun ⟨_, hlen, _⟩ => ⟨fun hroom => ?_, ?_⟩⟩
  · have hentry := stackAt_of_stack_set (s := s)
      (t := { s with stack := s.stack.set s.sp s.pc, sp := s.sp + 1, pc := nnn }) rfl (hlen ▸ hroom)
    exact ⟨_, exec_call_of_sp_ne nnn hroom.ne, rfl, rfl, (hentry _).trans (if_pos rfl),
      fun k hk => (hentry k).trans (if_neg hk), rfl, fun _ _ => ⟨rfl, rfl⟩, fun _ _ => rfl⟩
  · exact exec_call_of_full nnn

/-- Settles O15: the entry below SP goes to `pc`, and an empty stack is the fault. -/
theorem retPopsIntoPc : Obligations.RetPopsIntoPc :=
  fun _ h => ⟨decodeWord_of_encode_eq (RowMatch.ret h) rfl,
    fun hsp => ⟨_, exec_ret_of_sp_ne_zero h hsp.ne', rfl, rfl, rfl, fun _ _ => ⟨rfl, rfl⟩, fun _ _ => rfl⟩,
    exec_ret_of_empty h⟩

/-! ### The jumps (R153, R156) -/

/-- Settles O13: the jump writes `pc` and nothing else. -/
theorem jumpSetsPc : Obligations.JumpSetsPc :=
  fun s nnn => ⟨decodeWord_of_encode_eq (RowMatch.jp nnn) rfl, setPc s nnn, rfl, rfl, onlyPc_setPc s nnn⟩

/-- JP V0,nnn jumps to the sum (R156). -/
theorem exec_jpV0_of_readV {s : State} {b : Byte} (nnn : Addr) (hb : readV s 0 = .ok b) :
    exec (.jpV0 nnn) s = .next (goTo s (nnn.toNat + b.toNat)) := by
  rw [exec, execJpV0, hb, readThen_ok]

/-- Settles O16: the jump to the sum, within and past the end of memory. -/
theorem jumpV0AddsV0 : Obligations.JumpV0AddsV0 := by
  refine fun s nnn b => ⟨decodeWord_of_encode_eq (RowMatch.jpV0 nnn) rfl, fun hb => ?_⟩
  rw [exec_jpV0_of_readV nnn hb]
  constructor
  · intro h
    have hin : ¬ (s.cfg.pcOverflow = .fault ∧ 0x1000 ≤ nnn.toNat + b.toNat) := by
      rintro ⟨hfault, hpast⟩
      rcases h with hwrap | hlt
      · exact nomatch hwrap.symm.trans hfault
      · omega
    rw [goTo_of_inBounds hin]
    exact ⟨_, rfl, BitVec.toNat_ofNat .., onlyPc_setPc s _⟩
  · intro h
    rw [goTo_of_outOfBounds h]

/-! ### The register skips (R158 to R161) -/

section Skips

variable {s : State} {x y : Nibble} {a b : Byte}

theorem exec_seVxKk_of_readV (kk : Byte) (ha : readV s x = .ok a) :
    exec (.seVxKk x kk) s = .next (skipIf (a == kk) s) := by
  rw [exec, execSeVxKk, ha, readThen_ok]

theorem exec_sneVxKk_of_readV (kk : Byte) (ha : readV s x = .ok a) :
    exec (.sneVxKk x kk) s = .next (skipIf (a != kk) s) := by
  rw [exec, execSneVxKk, ha, readThen_ok]

theorem exec_seVxVy_of_readV (h : Nibble) (ha : readV s x = .ok a) (hb : readV s y = .ok b) :
    exec (.seVxVy x y h) s = .next (skipIf (a == b) s) := by
  rw [exec, execSeVxVy, ha, readThen_ok, hb, readThen_ok]

theorem exec_sneVxVy_of_readV (h : Nibble) (ha : readV s x = .ok a) (hb : readV s y = .ok b) :
    exec (.sneVxVy x y h) s = .next (skipIf (a != b) s) := by
  rw [exec, execSneVxVy, ha, readThen_ok, hb, readThen_ok]

theorem exec_skp_of_readV (ha : readV s x = .ok a) : exec (.skp x) s = .next (skipIf (keyDown s a) s) := by
  rw [exec, execSkp, ha, readThen_ok]

theorem exec_sknp_of_readV (ha : readV s x = .ok a) : exec (.sknp x) s = .next (skipIf (!keyDown s a) s) := by
  rw [exec, execSknp, ha, readThen_ok]

end Skips

/-- Settles O17: each register skip is `Skip` on its comparison. -/
theorem registerSkipsAdvanceTwoMore : Obligations.RegisterSkipsAdvanceTwoMore :=
  fun s x y h kk _ _ =>
    ⟨decodeWord_of_encode_eq (RowMatch.seVxKk x kk) rfl, decodeWord_of_encode_eq (RowMatch.sneVxKk x kk) rfl,
      decodeWord_of_encode_eq (RowMatch.seVxVy x y h) rfl, decodeWord_of_encode_eq (RowMatch.sneVxVy x y h) rfl,
      fun ha => ⟨⟨_, exec_seVxKk_of_readV kk ha, skips_skipIf s beq_iff_eq⟩,
        ⟨_, exec_sneVxKk_of_readV kk ha, skips_skipIf s bne_iff_ne⟩⟩,
      fun ha hb => ⟨⟨_, exec_seVxVy_of_readV h ha hb, skips_skipIf s beq_iff_eq⟩,
        ⟨_, exec_sneVxVy_of_readV h ha hb, skips_skipIf s bne_iff_ne⟩⟩⟩

/-! ### The key skips (R162, R163) -/

/-- The mask 0xF keeps the remainder mod 16, so the key is that of the low nibble. -/
theorem keyDown_eq (s : State) (code : Byte) : keyDown s code = s.key.getLsbD (code.toNat % 16) := by
  have hmask : (code &&& 0xF).toNat = code.toNat % 16 := Nat.and_two_pow_sub_one_eq_mod code.toNat 4
  rw [keyDown, hmask]

/-- Settles O18: each key skip is `Skip` on the level of the key of the low nibble. -/
theorem keySkipsTestTheSnapshot : Obligations.KeySkipsTestTheSnapshot := by
  refine fun s x a => ⟨decodeWord_of_encode_eq (RowMatch.skp x) rfl, decodeWord_of_encode_eq (RowMatch.sknp x) rfl,
    fun ha => ?_⟩
  rw [← keyDown_eq]
  exact ⟨⟨_, exec_skp_of_readV ha, skips_skipIf s Iff.rfl⟩,
    ⟨_, exec_sknp_of_readV ha, skips_skipIf s (iff_of_eq (Bool.not_eq_true' _))⟩⟩

end Sys2Proof.Machine
end

section
/-! PROOFS. The ALU (spec/42_alu.md): the frame of a write-back, what each of the ten instructions answers where its
operands can be read, and the six statements about them. -/

namespace Sys2Proof.Machine

open Laws

/-! ### The write-back (R191) -/

/-- A write-back keeps every register but its destination and, where it writes the flag, VF. -/
theorem onlyRegs_writeBack {x : Nibble} {out : AluOut} {D : Nibble → Prop} (s : State) (hx : D x)
    (hf : out.flagWe = true → D vf) : OnlyRegs s (writeBack s x out) D := by
  refine ⟨writeBack_frame s x out, fun r hr => ?_, fun a _ => by rw [writeBack_frame]; rfl⟩
  have hrx : r ≠ x := fun e => hr (e ▸ hx)
  have hrf : ¬ (r = vf ∧ out.flagWe = true) := fun ⟨e, hwe⟩ => hr (e ▸ hf hwe)
  constructor
  · rw [vAt_writeBack, if_neg hrx, if_neg hrf]
  · simp [vIsWritten_writeBack, hrx, hrf]

/-- Without a flag the write-back is a write of V[x]. -/
theorem writesReg_writeBack {x : Nibble} {out : AluOut} (s : State) (hwe : out.flagWe = false) :
    WritesReg s (writeBack s x out) x out.res.toNat :=
  ⟨by rw [vAt_writeBack, if_pos rfl], by simp [vIsWritten_writeBack],
    onlyRegs_writeBack s rfl fun h => nomatch hwe.symm.trans h⟩

theorem flagByte_toNat (f : Bool) : (flagByte f).toNat = f.toNat := by
  cases f <;> rfl

/-- With a flag the write-back is a write of VF and then of V[x]. -/
theorem writesRegAndFlag_writeBack {x : Nibble} {out : AluOut} (s : State) (hwe : out.flagWe = true) :
    WritesRegAndFlag s (writeBack s x out) x out.res.toNat out.flag.toNat := by
  refine ⟨by rw [vAt_writeBack, if_pos rfl], by simp [vIsWritten_writeBack], fun hx => ⟨?_, ?_⟩,
    onlyRegs_writeBack s (.inl rfl) fun _ => .inr rfl⟩
  · rw [vAt_writeBack, if_neg hx.symm, if_pos ⟨rfl, hwe⟩, flagByte_toNat]
  · simp [vIsWritten_writeBack, vf, hwe]

/-! ### The instructions, where their operands can be read (R192, R194 to R205) -/

section Answers

variable {s : State} {x y : Nibble} {a b : Byte}

theorem exec_ldVxKk (s : State) (x : Nibble) (kk : Byte) :
    exec (.ldVxKk x kk) s = .next (writeBack s x (alu s.cfg .pass kk kk s.rnd)) := rfl

theorem exec_rndVxKk (s : State) (x : Nibble) (kk : Byte) :
    exec (.rndVxKk x kk) s = .next (writeBack s x (alu s.cfg .rndand kk kk s.rnd)) := rfl

theorem exec_ldVxVy_of_readV (x : Nibble) (hb : readV s y = .ok b) :
    exec (.ldVxVy x y) s = .next (writeBack s x (alu s.cfg .pass b b s.rnd)) := by
  rw [exec, execLdVxVy, hb, readThen_ok]

theorem exec_addVxKk_of_readV (kk : Byte) (ha : readV s x = .ok a) :
    exec (.addVxKk x kk) s = .next (writeBack s x (alu s.cfg .addnf a kk s.rnd)) := by
  rw [exec, execAddVxKk, ha, readThen_ok]

/-- A class-8 operation on two readable registers: `exec` of each of its instructions is this by definition. -/
theorem aluXY_of_readV (op : AluOp) (ha : readV s x = .ok a) (hb : readV s y = .ok b) :
    aluXY op x y s = .next (writeBack s x (alu s.cfg op a b s.rnd)) := by
  rw [aluXY, ha, readThen_ok, hb, readThen_ok]

end Answers

/-! ### Loads and the random draw (R194, R196, R205) -/

/-- Settles O6: the ALU passes its second input, with no flag. -/
theorem loadsWriteTheirRegister : Obligations.LoadsWriteTheirRegister :=
  fun s x y kk _ =>
    ⟨⟨decodeWord_of_encode_eq (RowMatch.ldVxKk x kk) rfl, _, exec_ldVxKk s x kk, writesReg_writeBack s rfl⟩,
      decodeWord_of_encode_eq (RowMatch.ldVxVy x y) rfl,
      fun hb => ⟨_, exec_ldVxVy_of_readV x hb, writesReg_writeBack s rfl⟩⟩

/-- Settles O12: the result is the latched draw under the mask, with no flag. -/
theorem rndMasksTheDraw : Obligations.RndMasksTheDraw :=
  fun s x kk => ⟨decodeWord_of_encode_eq (RowMatch.rndVxKk x kk) rfl, _, exec_rndVxKk s x kk,
    BitVec.toNat_and s.rnd kk ▸ writesReg_writeBack s rfl⟩

/-! ### Sums (R195, R200) -/

/-- Settles O7: the sum wraps at the width of a register, with no flag. -/
theorem addConstantWrapsWithoutFlag : Obligations.AddConstantWrapsWithoutFlag :=
  fun s x kk a => ⟨decodeWord_of_encode_eq (RowMatch.addVxKk x kk) rfl, fun ha =>
    ⟨_, exec_addVxKk_of_readV kk ha, BitVec.toNat_add a kk ▸ writesReg_writeBack s rfl⟩⟩

/-- Settles O9: the flag is the carry of the unwrapped sum of the operands. -/
theorem addWritesCarryThenSum : Obligations.AddWritesCarryThenSum := by
  refine fun s x y a b => ⟨decodeWord_of_encode_eq (RowMatch.addVxVy x y) rfl, fun ha hb =>
    ⟨_, aluXY_of_readV .add ha hb, ?_⟩⟩
  have carry : (decide (255 < a.toNat + b.toNat)).toNat = if 255 < a.toNat + b.toNat then 1 else 0 :=
    Bool.cond_decide ..
  rw [← carry, ← BitVec.toNat_add a b]
  exact writesRegAndFlag_writeBack s rfl

/-! ### Bitwise operations (R197 to R199) -/

/-- A result with the flag 0 that is written only under `LOGIC_RESETS_VF`. -/
theorem writes_writeBack_of_logic {s t : State} {x : Nibble} {res : Byte}
    (ht : t = writeBack s x ⟨res, false, s.cfg.logicResetsVf⟩) :
    (s.cfg.logicResetsVf = true → WritesRegAndFlag s t x res.toNat 0) ∧
      (s.cfg.logicResetsVf = false → WritesReg s t x res.toNat) := by
  subst ht
  exact ⟨fun h => writesRegAndFlag_writeBack s h, fun h => writesReg_writeBack s h⟩

/-- Settles O8: the three operations differ in their result alone. -/
theorem logicWritesBitwiseResult : Obligations.LogicWritesBitwiseResult := by
  refine fun s x y a b => ⟨decodeWord_of_encode_eq (RowMatch.orVxVy x y) rfl,
    decodeWord_of_encode_eq (RowMatch.andVxVy x y) rfl, decodeWord_of_encode_eq (RowMatch.xorVxVy x y) rfl,
    fun ha hb => ?_⟩
  rw [← BitVec.toNat_or, ← BitVec.toNat_and, ← BitVec.toNat_xor]
  simp only [List.forall_mem_cons]
  exact ⟨⟨_, aluXY_of_readV .or ha hb, writes_writeBack_of_logic rfl⟩,
    ⟨_, aluXY_of_readV .and ha hb, writes_writeBack_of_logic rfl⟩,
    ⟨_, aluXY_of_readV .xor ha hb, writes_writeBack_of_logic rfl⟩, List.forall_mem_nil _⟩

/-! ### Differences (R193, R201, R203) -/

theorem byte_sub_toNat (p q : Byte) : (p - q).toNat = (p.toNat + 256 - q.toNat) % 256 := by
  rw [BitVec.toNat_sub]
  have := q.isLt
  omega

/-- `NoBorrow` as a number: the order of minuend and subtrahend, with `SUB_EQUAL_VF` at the tie. -/
theorem noBorrow_toNat (cfg : Config) (p q : Byte) : (noBorrow cfg p q).toNat =
    if q.toNat < p.toNat then 1 else if p.toNat = q.toNat then (if cfg.subEqualVf then 1 else 0) else 0 := by
  simp only [noBorrow, BitVec.toNat_inj]
  split
  · rfl
  · split
    · cases cfg.subEqualVf <;> rfl
    · rfl

/-- A difference with its no-borrow flag. -/
theorem writesRegAndFlag_writeBack_of_sub (s : State) (x : Nibble) (p q : Byte) :
    WritesRegAndFlag s (writeBack s x ⟨p - q, noBorrow s.cfg p q, true⟩) x ((p.toNat + 256 - q.toNat) % 256)
      (if q.toNat < p.toNat then 1 else if p.toNat = q.toNat then (if s.cfg.subEqualVf then 1 else 0) else 0) := by
  rw [← byte_sub_toNat, ← noBorrow_toNat]
  exact writesRegAndFlag_writeBack s rfl

/-- Settles O10: SUBN is SUB with minuend and subtrahend exchanged. -/
theorem subAndSubnWriteNoBorrowThenDifference : Obligations.SubAndSubnWriteNoBorrowThenDifference := by
  refine fun s x y a b => ⟨decodeWord_of_encode_eq (RowMatch.subVxVy x y) rfl,
    decodeWord_of_encode_eq (RowMatch.subnVxVy x y) rfl, fun ha hb => ?_⟩
  simp only [List.forall_mem_cons]
  exact ⟨⟨_, aluXY_of_readV .sub ha hb, writesRegAndFlag_writeBack_of_sub s x a b⟩,
    ⟨_, aluXY_of_readV .subn ha hb, writesRegAndFlag_writeBack_of_sub s x b a⟩, List.forall_mem_nil _⟩

end Sys2Proof.Machine
end

section
/-! PROOFS. Index and memory (spec/43_index_memory.md): the frame of a write of I, the run of bytes that LD B,Vx stores,
the advance of I after a register block, and the six statements about these instructions. -/

namespace Sys2Proof.Machine

open Laws

/-! ### Writing I and computing addresses (R24, R242, R243) -/

/-- Writing I changes I and its written bit alone. -/
theorem onlyI_setI (s : State) (a : Addr) : OnlyI s (setI s a) :=
  ⟨rfl, fun _ _ => ⟨rfl, rfl⟩, fun _ _ => rfl⟩

/-- An effective address wraps at the end of memory (R243). -/
theorem ea_toNat (i : Addr) (k : Nat) : (ea i k).toNat = (i.toNat + k) % 4096 := by
  simp [ea]

/-- Five times a byte is below 4096, so the glyph address never wraps (R242). -/
theorem glyphAddr_toNat (cfg : Config) (a : Byte) :
    (glyphAddr cfg a).toNat = 5 * (if cfg.fontDigitMask then a.toNat % 16 else a.toNat) := by
  have low : (a &&& 0xF).toNat = a.toNat % 16 := Nat.and_two_pow_sub_one_eq_mod a.toNat 4
  have := a.isLt
  rw [glyphAddr, BitVec.toNat_ofNat]
  cases cfg.fontDigitMask
  · simp only [Bool.false_eq_true, if_false]; omega
  · simp only [if_true, low]; omega

/-- The digits of R244, as numbers. -/
theorem bcdDigit_eq (a : Byte) :
    bcdDigit a 0 = BitVec.ofNat 8 (a.toNat / 100) ∧ bcdDigit a 1 = BitVec.ofNat 8 (a.toNat / 10 % 10) ∧
      bcdDigit a 2 = BitVec.ofNat 8 (a.toNat % 10) := by
  have := a.isLt
  refine ⟨BitVec.eq_of_toNat_eq ?_, BitVec.eq_of_toNat_eq ?_, BitVec.eq_of_toNat_eq ?_⟩ <;>
    (simp [bcdDigit]; omega)

/-! ### A run of bytes (R244) -/

/-- The bytes `vals 0 .. vals (n-1)` stored in ascending order from `i`. -/
def storeRun (i : Addr) (vals : Nat → Byte) (n : Nat) (s : State) : State :=
  repeatUpTo n (fun k t => storeByte t (ea i k) (vals k)) s

theorem storeRun_succ (i : Addr) (vals : Nat → Byte) (n : Nat) (s : State) :
    storeRun i vals (n + 1) s = storeByte (storeRun i vals n s) (ea i n) (vals n) := rfl

/-- A run of bytes changes memory only. -/
theorem storeRun_frame (i : Addr) (vals : Nat → Byte) (n : Nat) (s : State) :
    storeRun i vals n s = { s with mem := (storeRun i vals n s).mem } :=
  repeatUpTo_keeps (P := fun t : State => t = { s with mem := t.mem }) (fun _ _ ht => by rw [ht]; rfl) n rfl

/-- Each byte of a run not longer than memory is found at its address: no later one overwrites it. -/
theorem byteAt_storeRun {i : Addr} {vals : Nat → Byte} {n k : Nat} (s : State) (hn : n ≤ 4096) (hk : k < n) :
    byteAt (storeRun i vals n s) (ea i k) = some (vals k) := by
  induction n with
  | zero => exact absurd hk (Nat.not_lt_zero k)
  | succ n ih =>
    rw [storeRun_succ]
    by_cases e : k = n
    · rw [e, byteAt_storeByte_self]
    · rw [byteAt_storeByte_other _ (ea_ne (by omega) (by omega) e)]
      exact ih (by omega) (by omega)

/-- A run of bytes reaches no address but its own. -/
theorem byteAt_storeRun_other {i a : Addr} {vals : Nat → Byte} {n : Nat} (s : State) (h : ∀ k < n, a ≠ ea i k) :
    byteAt (storeRun i vals n s) a = byteAt s a := by
  induction n with
  | zero => rfl
  | succ n ih =>
    rw [storeRun_succ, byteAt_storeByte_other _ (h n (by omega))]
    exact ih fun k hk => h k (by omega)

/-! ### The advance of I (R245, R246) -/

section Advance

variable {s t : State} (i : Addr) (x : Nibble)

/-- The advance changes I and its written bit only. -/
theorem advanceI_frame (t : State) :
    advanceI i x t = { t with i := (advanceI i x t).i, iWritten := (advanceI i x t).iWritten } := by
  rcases advanceI_cases i x t with ⟨-, e⟩ | ⟨-, e⟩
  · rw [e]; rfl
  · rw [e]

@[simp] theorem byteAt_advanceI (t : State) (a : Addr) : byteAt (advanceI i x t) a = byteAt t a := by
  rw [advanceI_frame]; rfl

@[simp] theorem vAt_advanceI (t : State) (r : Nibble) : vAt (advanceI i x t) r = vAt t r := by
  rw [advanceI_frame]; rfl

@[simp] theorem vIsWritten_advanceI (t : State) (r : Nibble) : vIsWritten (advanceI i x t) r = vIsWritten t r := by
  rw [advanceI_frame]; rfl

/-- Under `LDST_INC_I` the block ends with I past its last cell, mod 4096. -/
theorem advanceI_of_inc (hcfg : t.cfg = s.cfg) (h : s.cfg.ldstIncI = true) :
    (advanceI i x t).i.toNat = (i.toNat + x.toNat + 1) % 4096 ∧ (advanceI i x t).iWritten = true := by
  have e : advanceI i x t = setI t (ea i (x.toNat + 1)) := if_pos (hcfg ▸ h)
  rw [e]
  exact ⟨ea_toNat i (x.toNat + 1), rfl⟩

/-- Without `LDST_INC_I` the block leaves I alone. -/
theorem advanceI_of_keep (hcfg : t.cfg = s.cfg) (h : s.cfg.ldstIncI = false) : advanceI i x t = t := by
  rw [advanceI, hcfg, h]; rfl

end Advance

/-! ### The instructions, where their operands can be read (R240 to R246) -/

section Answers

variable {s t : State} {x : Nibble} {a : Byte} {i : Addr}

theorem exec_ldI (s : State) (nnn : Addr) : exec (.ldI nnn) s = .next (setI s nnn) := rfl

theorem exec_addIVx_of_reads (hi : readI s = .ok i) (ha : readV s x = .ok a) :
    exec (.addIVx x) s = .next (setI s (ea i a.toNat)) := by
  rw [exec, execAddIVx, hi, readThen_ok, ha, readThen_ok]

theorem exec_ldFVx_of_readV (ha : readV s x = .ok a) :
    exec (.ldFVx x) s = .next (setI s (glyphAddr s.cfg a)) := by
  rw [exec, execLdFVx, ha, readThen_ok]

theorem exec_ldBVx_of_reads (ha : readV s x = .ok a) (hi : readI s = .ok i) :
    exec (.ldBVx x) s = .next (storeRun i (bcdDigit a) 3 s) := by
  rw [exec, execLdBVx, ha, readThen_ok, hi, readThen_ok, storeRun]

theorem exec_ldMemVx_of_storeRegs (hi : readI s = .ok i) (ht : storeRegs i (x.toNat + 1) s = .ok t) :
    exec (.ldMemVx x) s = .next (advanceI i x t) := by
  rw [exec, execLdMemVx, hi, readThen_ok, ht, readThen_ok]

theorem exec_ldVxMem_of_loadRegs (hi : readI s = .ok i) (ht : loadRegs i (x.toNat + 1) s = .ok t) :
    exec (.ldVxMem x) s = .next (advanceI i x t) := by
  rw [exec, execLdVxMem, hi, readThen_ok, ht, readThen_ok]

end Answers

/-! ### Setting I (R240 to R242) -/

/-- Settles O20: I takes the word's constant. -/
theorem loadIndexSetsI : Obligations.LoadIndexSetsI :=
  fun s nnn => ⟨decodeWord_of_encode_eq (RowMatch.ldI nnn) rfl, _, exec_ldI s nnn, rfl, rfl, onlyI_setI s nnn⟩

/-- Settles O21: the sum is an effective address, so it wraps, and VF is among the registers a write of I keeps. -/
theorem addIndexWraps : Obligations.AddIndexWraps :=
  fun s x i a => ⟨decodeWord_of_encode_eq (RowMatch.addIVx x) rfl, fun hi ha =>
    ⟨_, exec_addIVx_of_reads hi ha, ea_toNat i a.toNat, rfl, onlyI_setI s _⟩⟩

/-- Settles O22: the glyph address under both values of `FONT_DIGIT_MASK`. -/
theorem loadGlyphAddress : Obligations.LoadGlyphAddress :=
  fun s x a => ⟨decodeWord_of_encode_eq (RowMatch.ldFVx x) rfl, fun ha =>
    ⟨_, exec_ldFVx_of_readV ha, glyphAddr_toNat s.cfg a, rfl, onlyI_setI s _⟩⟩

/-! ### Decimal digits (R244) -/

/-- Settles O23: the digits are a run of three bytes from I. -/
theorem bcdStoresThreeDigits : Obligations.BcdStoresThreeDigits := by
  refine fun s x a i => ⟨decodeWord_of_encode_eq (RowMatch.ldBVx x) rfl, fun ha hi =>
    ⟨_, exec_ldBVx_of_reads ha hi, ?_⟩⟩
  obtain ⟨hundreds, tens, units⟩ := bcdDigit_eq a
  rw [← hundreds, ← tens, ← units]
  refine ⟨byteAt_storeRun s (by decide) (by decide), byteAt_storeRun s (by decide) (by decide),
    byteAt_storeRun s (by decide) (by decide), storeRun_frame .., fun r _ => ?_, fun p hp => ?_⟩
  · rw [storeRun_frame]; exact ⟨rfl, rfl⟩
  · refine byteAt_storeRun_other s fun k hk e => hp ?_
    interval_cases k
    · exact .inl e
    · exact .inr (.inl e)
    · exact .inr (.inr e)

/-! ### Register blocks (R245, R246) -/

/-- Settles O24: the block store, then the advance of I, which touches no byte. -/
theorem blockStoreWritesMemory : Obligations.BlockStoreWritesMemory := by
  refine fun s x i vals => ⟨decodeWord_of_encode_eq (RowMatch.ldMemVx x) rfl, fun hi hv => ?_⟩
  obtain ⟨t, ht, hbytes, hother⟩ :=
    storeRegs_ok s i vals (x.toNat + 1) x.isLt fun k hk => hv k (Nat.le_of_lt_succ hk)
  have frame := storeRegs_frame ht
  have hcfg : t.cfg = s.cfg := by rw [frame]
  refine ⟨_, exec_ldMemVx_of_storeRegs hi ht, fun k hk => ?_, advanceI_of_inc i x hcfg, fun h => ?_, ?_,
    fun r _ => ?_, fun p hp => ?_⟩
  · rw [byteAt_advanceI]; exact hbytes k (Nat.lt_succ_of_le hk)
  · rw [advanceI_of_keep i x hcfg h]
    rw [frame]; exact ⟨rfl, rfl⟩
  · rw [advanceI_frame, frame]
  · rw [vAt_advanceI, vIsWritten_advanceI, frame]; exact ⟨rfl, rfl⟩
  · rw [byteAt_advanceI]
    exact hother p fun k hk e => hp ⟨k, Nat.le_of_lt_succ hk, e⟩

/-- Settles O25: the block load, then the advance of I, which touches no register. -/
theorem blockLoadWritesRegisters : Obligations.BlockLoadWritesRegisters := by
  refine fun s x i vals => ⟨decodeWord_of_encode_eq (RowMatch.ldVxMem x) rfl, fun hi hv => ?_⟩
  obtain ⟨t, ht, hregs, hother⟩ :=
    loadRegs_ok s i vals (x.toNat + 1) x.isLt fun k hk => hv k (Nat.le_of_lt_succ hk)
  have frame := loadRegs_frame ht
  have hcfg : t.cfg = s.cfg := by rw [frame]
  refine ⟨_, exec_ldVxMem_of_loadRegs hi ht, fun k hk => ?_, advanceI_of_inc i x hcfg, fun h => ?_, ?_,
    fun r hr => ?_, fun p _ => ?_⟩
  · rw [vAt_advanceI, vIsWritten_advanceI]; exact hregs k (Nat.lt_succ_of_le hk)
  · rw [advanceI_of_keep i x hcfg h]
    rw [frame]; exact ⟨rfl, rfl⟩
  · rw [advanceI_frame, frame]
  · rw [vAt_advanceI, vIsWritten_advanceI]; exact hother r (Nat.lt_of_not_le hr)
  · rw [byteAt_advanceI, frame]; rfl

end Sys2Proof.Machine
end

section
/-! PROOFS. Timers and keys (spec/44_timers_keys.md): the counters and their tone edges, the lowest key that is down, the
pulse of a core that runs no tick or a waiting one, and the five statements about them. -/

namespace Sys2Proof.Machine

open Laws

/-! ### The timer step (R270 to R272) -/

/-- The subtraction of naturals stops at 0 where the counter does. -/
theorem countDown_toNat (b : Byte) : (countDown b).toNat = b.toNat - 1 := by
  unfold countDown
  split
  · next h => rw [h]; rfl
  · next h =>
    have hpos : b.toNat ≠ 0 := fun e => h (BitVec.eq_of_toNat_eq e)
    have := b.isLt
    rw [byte_sub_toNat, show (1 : Byte).toNat = 1 from rfl]
    omega

theorem countDown_eq_zero_iff (b : Byte) : countDown b = 0 ↔ b.toNat ≤ 1 := by
  rw [← BitVec.toNat_inj, countDown_toNat]
  exact Nat.sub_eq_zero_iff_le

theorem timerStep_playTone_iff (st0 : Byte) (s : State) :
    (timerStep st0 s).playTone = true ↔ st0 = 0 ∧ s.st ≠ 0 := by
  simp

theorem timerStep_stopTone_iff (st0 : Byte) (s : State) :
    (timerStep st0 s).stopTone = true ↔ (st0 ≠ 0 ∨ s.st ≠ 0) ∧ countDown s.st = 0 := by
  simp

/-! ### A pulse (R120, R126) -/

/-- A pulse is the core's part of it and then the render. -/
theorem step_of_pulse {s : State} {keys : BitVec 16} {rnd : Byte} {brk clr : Bool}
    (he : nextEvent s = .pulse keys rnd brk clr) :
    step s = renderAfter (clr && !s.halt) (pulseTick keys rnd brk (beginEvent s)) := by
  rw [step, he]
  rfl

theorem runState_eq_awaitingKey_iff (s : State) :
    runState s = .awaitingKey ↔ s.halt = false ∧ s.susp = false ∧ s.waitK = true := by
  unfold runState
  cases s.halt <;> cases s.susp <;> cases s.waitK <;> simp

theorem runState_eq_suspended_iff (s : State) : runState s = .suspended ↔ s.halt = false ∧ s.susp = true := by
  unfold runState
  cases s.halt <;> cases s.susp <;> cases s.waitK <;> simp

section Pulse

variable {s : State} {keys : BitVec 16} {rnd : Byte}

theorem pulseTick_of_stopped {brk : Bool} (h : runState s = .suspended ∨ runState s = .halted) :
    pulseTick keys rnd brk s = .next s := by
  rcases h with h | h <;> rw [pulseTick, h]

theorem pulseTick_of_break (hs : runState s ≠ .suspended) (hh : runState s ≠ .halted) :
    pulseTick keys rnd true s = .next (enterBreak s) := by
  cases hr : runState s with
  | suspended => exact absurd hr hs
  | halted => exact absurd hr hh
  | running | awaitingKey => rw [pulseTick, hr]; rfl

theorem pulseTick_of_awaitingKey (h : runState s = .awaitingKey) :
    pulseTick keys rnd false s = .next (waitingTick keys s) := by
  obtain ⟨-, -, hwait⟩ := (runState_eq_awaitingKey_iff s).mp h
  simp [pulseTick, h, underlyingTick, hwait]

/-- Without a tick no timer is stepped, so the core's part of the pulse leaves the edges as it finds them. -/
theorem pulseTick_keeps_edges {u : State} {brk : Bool}
    (h : brk = true ∨ runState s = .suspended ∨ runState s = .halted) (hu : pulseTick keys rnd brk s = .next u) :
    u.playTone = s.playTone ∧ u.stopTone = s.stopTone := by
  by_cases hstop : runState s = .suspended ∨ runState s = .halted
  · rw [pulseTick_of_stopped hstop] at hu
    cases hu
    exact ⟨rfl, rfl⟩
  · obtain ⟨hs, hh⟩ := not_or.mp hstop
    rw [h.resolve_right hstop, pulseTick_of_break hs hh] at hu
    cases hu
    exact ⟨rfl, rfl⟩

end Pulse

/-- Settles O29: the counters with their edges, and the pulses that step none. -/
theorem timerStepCountsDown : Obligations.TimerStepCountsDown := by
  refine ⟨fun s st0 => ⟨countDown_toNat s.dt, countDown_toNat s.st, timerStep_playTone_iff st0 s,
    timerStep_stopTone_iff st0 s, bne_iff_ne, rfl⟩, ?_⟩
  intro s t keys rnd brk clr he hnotick hstep
  rw [step_of_pulse he] at hstep
  obtain ⟨u, hu, rfl⟩ := renderAfter_next hstep
  have hedges : u.playTone = false ∧ u.stopTone = false := pulseTick_keeps_edges (s := beginEvent s) hnotick hu
  exact hedges

/-! ### The timer instructions (R273 to R275) -/

theorem writesReg_setV (s : State) (x : Nibble) (b : Byte) : WritesReg s (setV s x b) x b.toNat :=
  writesReg_writeBack (out := ⟨b, false, false⟩) s rfl

section Answers

variable {s : State} {x : Nibble} {a : Byte}

theorem exec_ldVxDt (s : State) (x : Nibble) : exec (.ldVxDt x) s = .next (setV s x s.dt) := rfl

theorem exec_ldDtVx_of_readV (ha : readV s x = .ok a) :
    exec (.ldDtVx x) s = .next { s with dt := a } := by
  rw [exec, execLdDtVx, ha, readThen_ok]

theorem exec_ldStVx_of_readV (ha : readV s x = .ok a) :
    exec (.ldStVx x) s = .next { s with st := a } := by
  rw [exec, execLdStVx, ha, readThen_ok]

end Answers

/-- Settles O30: the register takes DT, which the write of a register leaves to the timer step. -/
theorem readDelayTimer : Obligations.ReadDelayTimer :=
  fun s x => ⟨decodeWord_of_encode_eq (RowMatch.ldVxDt x) rfl, _, exec_ldVxDt s x, writesReg_setV s x s.dt,
    countDown_toNat s.dt⟩

/-- Settles O31: each timer is set and then counted down; the edges compare `a` with ST before the tick. -/
theorem setTimersAreDecrementedInTheSameTick : Obligations.SetTimersAreDecrementedInTheSameTick := by
  refine fun s x a => ⟨decodeWord_of_encode_eq (RowMatch.ldDtVx x) rfl, decodeWord_of_encode_eq (RowMatch.ldStVx x) rfl,
    fun ha => ⟨⟨_, exec_ldDtVx_of_readV ha, rfl, fun _ _ => ⟨rfl, rfl⟩, fun _ _ => rfl, countDown_toNat a⟩,
      ⟨_, exec_ldStVx_of_readV ha, rfl, fun _ _ => ⟨rfl, rfl⟩, fun _ _ => rfl, countDown_toNat a,
        timerStep_playTone_iff .., ?_⟩⟩⟩
  rw [← countDown_eq_zero_iff]
  exact timerStep_stopTone_iff ..

/-! ### The lowest key that is down (R276, R277) -/

theorem lowestKey_zero : lowestKey 0 = none := by decide

/-- `lowestKey_some` from right to left: two lowest keys are the same key. -/
theorem lowestKey_eq_some {keys : BitVec 16} {k : Nat} (hk : keys.getLsbD k = true)
    (hlow : ∀ j < k, keys.getLsbD j = false) : lowestKey keys = some k := by
  cases hj : lowestKey keys with
  | none => rw [lowestKey_none hj, BitVec.ofNat_eq_ofNat, BitVec.getLsbD_zero] at hk; exact nomatch hk
  | some j =>
    obtain ⟨-, hjk, hjlow⟩ := lowestKey_some hj
    have hkj : ¬ k < j := fun h => nomatch hk.symm.trans (hjlow k h)
    have hjk' : ¬ j < k := fun h => nomatch hjk.symm.trans (hlow j h)
    exact congrArg some (by omega)

theorem keyCode_toNat {k : Nat} (hk : k < 16) : (keyCode k).toNat = k :=
  (BitVec.toNat_ofNat ..).trans (Nat.mod_eq_of_lt (by omega))

/-! ### The key wait (R276, R277) -/

theorem exec_ldVxK_of_key {s : State} {k : Nat} (x : Nibble) (h : lowestKey s.key = some k) :
    exec (.ldVxK x) s = .next (setV s x (keyCode k)) := by
  rw [exec, execLdVxK, h]

theorem exec_ldVxK_of_no_key {s : State} (x : Nibble) (h : lowestKey s.key = none) :
    exec (.ldVxK x) s = .next { s with waitK := true, waitX := x } := by
  rw [exec, execLdVxK, h]

/-- Writing the code of key `k` writes `k`. -/
theorem writesReg_setV_keyCode {k : Nat} (s : State) (x : Nibble) (hk : k < 16) :
    WritesReg s (setV s x (keyCode k)) x k := by
  have := writesReg_setV s x (keyCode k)
  rwa [keyCode_toNat hk] at this

/-- Settles O32: `lowestKey` decides between the capture and the wait. -/
theorem waitForKeyCapturesOrWaits : Obligations.WaitForKeyCapturesOrWaits := by
  refine fun s x => ⟨decodeWord_of_encode_eq (RowMatch.ldVxK x) rfl, fun k hk hdown hlow => ?_, fun hnone => ?_⟩
  · exact ⟨_, exec_ldVxK_of_key x (lowestKey_eq_some hdown hlow), writesReg_setV_keyCode s x hk⟩
  · have hkey : lowestKey s.key = none := hnone ▸ lowestKey_zero
    exact ⟨_, exec_ldVxK_of_no_key x hkey, rfl, fun _ _ => ⟨rfl, rfl⟩, fun _ _ => rfl⟩

theorem captureKey_of_key {s : State} {k : Nat} (h : lowestKey s.key = some k) :
    captureKey s = { setV s s.waitX (keyCode k) with waitK := false } := by
  rw [captureKey, h]

theorem captureKey_of_no_key {s : State} (h : lowestKey s.key = none) : captureKey s = s := by
  rw [captureKey, h]

/-- A break writes CAUSE and SUSP, and nothing else (R344). -/
theorem enterBreak_frame (s : State) : enterBreak s = { s with cause := .break, susp := true } := by
  simp [enterFault, Cause.fatal, Cause.recoverable]

theorem resume_of_suspended {s : State} (h : runState s = .suspended) : resume s = { s with susp := false } := by
  rw [resume, h]

/-- A break leaves the wait under the suspension, and `resume` uncovers it (R344, R345). -/
theorem runState_of_break_while_waiting {s : State} (h : runState s = .awaitingKey) (clr : Bool) :
    runState (renderThenClear clr (enterBreak s)) = .suspended ∧
      runState (resume (renderThenClear clr (enterBreak s))) = .awaitingKey := by
  obtain ⟨hhalt, -, hwait⟩ := (runState_eq_awaitingKey_iff s).mp h
  rw [enterBreak_frame]
  have hsusp : runState (renderThenClear clr { s with cause := .break, susp := true }) = .suspended :=
    (runState_eq_suspended_iff _).mpr ⟨hhalt, rfl⟩
  rw [resume_of_suspended hsusp]
  exact ⟨hsusp, (runState_eq_awaitingKey_iff _).mpr ⟨hhalt, rfl, hwait⟩⟩

/-- Settles O33: the waiting tick is the capture and the timer step, and the break comes before it. -/
theorem waitingTickCapturesLowestKey : Obligations.WaitingTickCapturesLowestKey := by
  intro s keys rnd clr hr
  obtain ⟨hhalt, -, hwait⟩ := (runState_eq_awaitingKey_iff s).mp hr
  have hr' : runState (beginEvent s) = .awaitingKey := hr
  have hclr : (clr && !s.halt) = clr := by rw [hhalt, Bool.not_false, Bool.and_true]
  constructor
  · intro he
    have hstep : step s = .next (renderThenClear clr (waitingTick keys (beginEvent s))) := by
      rw [step_of_pulse he, hclr, pulseTick_of_awaitingKey hr', renderAfter]
    refine ⟨captureKey { afterEvent s with key := keys }, hstep, fun hnone => ?_, fun k hk hdown hlow => ?_⟩
    · exact captureKey_of_no_key (hnone ▸ lowestKey_zero)
    · have hkey : lowestKey { afterEvent s with key := keys }.key = some k := lowestKey_eq_some hdown hlow
      rw [captureKey_of_key hkey]
      exact ⟨rfl, writesReg_setV_keyCode { afterEvent s with key := keys, waitK := false } s.waitX hk⟩
  · intro he
    have hstep : step s = .next (renderThenClear clr (enterBreak (beginEvent s))) := by
      rw [step_of_pulse he, hclr, pulseTick_of_break (by simp [hr']) (by simp [hr']), renderAfter]
    obtain ⟨hsusp, hresumed⟩ := runState_of_break_while_waiting hr' clr
    exact ⟨_, hstep, hsusp, hwait, hresumed⟩

end Sys2Proof.Machine
end

section
/-! PROOFS. The display (spec/45_display.md R300). -/

namespace Sys2Proof.Machine

open Laws

/-! ### The clear (R300) -/

/-- A cell of the cleared framebuffer is 0, inside the grid and outside it. -/
@[simp] theorem fbCell_replicate_zero (r c : Nat) : fbCell (Vector.replicate 32 0) r c = false := by
  unfold fbCell
  split
  case isTrue h => rw [Vector.getElem_replicate, BitVec.ofNat_eq_ofNat, BitVec.getLsbD_zero]
  case isFalse => rfl

theorem exec_cls (s : State) (h : Nibble) :
    exec (.cls h) s = .next { s with fb := Vector.replicate 32 0, dirty := true } := rfl

/-- Settles O34: the clear reads neither FB nor DIRTY, so it sets DIRTY on an all-zero framebuffer too. -/
theorem clearScreenZeroesAllCells : Obligations.ClearScreenZeroesAllCells :=
  fun s h => ⟨decodeWord_of_encode_eq (RowMatch.cls h) rfl, _, exec_cls s h, fbCell_replicate_zero, rfl, rfl,
    fun _ _ => ⟨rfl, rfl⟩, fun _ _ => rfl⟩

end Sys2Proof.Machine
end

section
/-! PROOFS. Exceptions and the debugger (spec/60_exceptions.md R332, R333, R336, R344, R345, R349): a word that halts the
core, the pulse of a core that is stopped or not, what can raise OutOfBoundsAccess, and the five statements about them. -/

namespace Sys2Proof.Machine

/-! ### The stack faults (R332, R333) -/

/-- Where the instruction halts the core the tick ends there: no timer step (R124, R339). -/
theorem runWord_of_halting {s t : State} {i : Instr} (st0 : Byte) (hd : decodeWord s.curWord = some i)
    (he : exec i s = .next t) (ht : t.halt = true) : runWord st0 s = .next t := by
  simp only [runWord, hd, he, finishTick, ht, if_true]

/-- A pulse whose word raises a fatal fault is that fault and then the render. -/
theorem step_of_fatal_word {s : State} {keys : BitVec 16} {rnd : Byte} {clr : Bool} {w : Word} {i : Instr} {c : Cause}
    (he : nextEvent s = .pulse keys rnd false clr) (hr : runState s = .running) (hb : FetchInBounds s)
    (hw : fetchWord s = .ok w) (hd : decodeWord w = some i)
    (hf : exec i (atExecute s keys rnd w) = .next (haltedBy c (atExecute s keys rnd w))) :
    step s = .next (renderThenClear clr (haltedBy c (atExecute s keys rnd w))) := by
  rw [step_of_running_pulse he hr hb hw, runWord_of_halting (s := atExecute s keys rnd w) s.st hd hf rfl,
    renderAfter]

/-- Settles O42: RET and CALL at the ends of the stack halt the core, and the word is at the `pc` of the fetch. -/
theorem stackFaultsHaltWithoutTimerStep : Obligations.StackFaultsHaltWithoutTimerStep :=
  fun _ _ _ _ _ he hr hb hw =>
    ⟨fun h hd hsp => step_of_fatal_word he hr hb hw hd (exec_ret_of_empty h hsp),
      fun nnn hd hsp => step_of_fatal_word he hr hb hw hd (exec_call_of_full nnn hsp)⟩

/-! ### A pulse of a core that is not stopped (R120, R340) -/

theorem runState_eq_halted_iff (s : State) : runState s = .halted ↔ s.halt = true := by
  unfold runState
  cases s.halt <;> cases s.susp <;> cases s.waitK <;> simp

section Ticking

variable {s : State} {keys : BitVec 16} {rnd : Byte} {clr : Bool}

theorem pulseTick_of_ticking (hs : runState s ≠ .suspended) (hh : runState s ≠ .halted) :
    pulseTick keys rnd false s = underlyingTick keys rnd s := by
  cases hr : runState s with
  | suspended => exact absurd hr hs
  | halted => exact absurd hr hh
  | running | awaitingKey => rw [pulseTick, hr]; rfl

/-- A core that is not halted at the pulse takes its `dirty_clr` (R307). -/
theorem step_of_pulse_of_not_halted {brk : Bool} (he : nextEvent s = .pulse keys rnd brk clr)
    (hh : runState s ≠ .halted) : step s = renderAfter clr (pulseTick keys rnd brk (beginEvent s)) := by
  have hhalt : s.halt = false := Bool.eq_false_iff.mpr fun h => hh ((runState_eq_halted_iff s).mpr h)
  rw [step_of_pulse he, hhalt, Bool.not_false, Bool.and_true]

/-- A pulse without a break on a core that is not stopped is the tick of its underlying state and then the render. -/
theorem step_of_ticking_pulse (he : nextEvent s = .pulse keys rnd false clr) (hs : runState s ≠ .suspended)
    (hh : runState s ≠ .halted) : step s = renderAfter clr (underlyingTick keys rnd (beginEvent s)) := by
  rw [step_of_pulse_of_not_halted he hh]
  exact congrArg (renderAfter clr) (pulseTick_of_ticking (s := beginEvent s) hs hh)

/-- A pulse on a stopped core is its render alone, whatever break it requests. -/
theorem step_of_stopped_pulse {brk : Bool} (he : nextEvent s = .pulse keys rnd brk clr)
    (h : runState s = .suspended ∨ runState s = .halted) :
    step s = .next (renderThenClear (clr && !s.halt) (beginEvent s)) := by
  rw [step_of_pulse he]
  exact congrArg (renderAfter _) (pulseTick_of_stopped (s := beginEvent s) h)

end Ticking

/-! ### Break, resume and the halted core (R344, R345, R349) -/

/-- Settles O44: the break comes before the tick, and a stopped core takes none. -/
theorem breakSuspendsBeforeTheTick : Obligations.BreakSuspendsBeforeTheTick := by
  refine fun s keys rnd he => ⟨fun hr => ?_, fun hr => ?_⟩
  · have hs : runState s ≠ .suspended := by rcases hr with h | h <;> simp [h]
    have hh : runState s ≠ .halted := by rcases hr with h | h <;> simp [h]
    have hstep : step s = .next (renderThenClear false (enterBreak (beginEvent s))) := by
      rw [step_of_pulse_of_not_halted he hh]
      exact congrArg (renderAfter false) (pulseTick_of_break (s := beginEvent s) hs hh)
    refine ⟨_, hstep, ?_⟩
    rw [enterBreak_frame, renderThenClear_false]
    rfl
  · refine ⟨_, step_of_stopped_pulse he hr, ?_⟩
    rw [Bool.false_and, renderThenClear_false]
    rfl

theorem step_of_resume {s : State} (he : nextEvent s = .resume) : step s = .next (resume (beginEvent s)) := by
  rw [step, he, takeEvent]

theorem resume_of_halted {s : State} (h : runState s = .halted) : resume s = s := by
  rw [resume, h]

/-- Without SUSP and HALT, WAITK alone decides the run state (R34). -/
theorem runState_of_not_stopped {s : State} (hh : s.halt = false) (hs : s.susp = false) :
    runState s = if s.waitK then .awaitingKey else .running := by
  simp [runState, hh, hs]

/-- Settles O45: SUSP is cleared, so that the run state is that of WAITK, which the next pulse ticks. -/
theorem resumeReturnsToTheUnderlyingState : Obligations.ResumeReturnsToTheUnderlyingState := by
  refine fun s he => ⟨fun hr => ?_, fun hr => ?_⟩
  · have hhalt : s.halt = false := ((runState_eq_suspended_iff s).mp hr).1
    have hrun : runState { afterEvent s with susp := false } = if s.waitK then .awaitingKey else .running :=
      runState_of_not_stopped (s := { afterEvent s with susp := false }) hhalt rfl
    refine ⟨{ afterEvent s with susp := false }, ?_, rfl, hrun, fun keys rnd clr hnext => ?_⟩
    · rw [step_of_resume he]
      exact congrArg Host.Outcome.next (resume_of_suspended (s := beginEvent s) hr)
    · refine step_of_ticking_pulse hnext ?_ ?_ <;> rw [hrun] <;> cases s.waitK <;> decide
  · rw [step_of_resume he]
    exact congrArg Host.Outcome.next (resume_of_halted (s := beginEvent s) hr)

/-- An event other than a pulse leaves a halted core as it finds it (R345, R346, R349). -/
theorem takeEvent_of_halted {s : State} {e : Event} (h : runState s = .halted)
    (hp : ∀ keys rnd brk clr, e ≠ .pulse keys rnd brk clr) : takeEvent e s = .next s := by
  cases e with
  | pulse keys rnd brk clr => exact absurd rfl (hp keys rnd brk clr)
  | resume => rw [takeEvent, resume_of_halted h]
  | singleStep keys rnd => rw [takeEvent, takeSingleStep, h]
  | enableTrace => rw [takeEvent, enableTrace, h]
  | memdump | printRegisters => rfl

/-- Settles O47: a pulse only renders, without its `dirty_clr`, and no other event does anything. -/
theorem haltedIsTerminal : Obligations.HaltedIsTerminal := by
  intro s hr
  by_cases hp : ∃ keys rnd brk clr, nextEvent s = .pulse keys rnd brk clr
  · obtain ⟨keys, rnd, brk, clr, he⟩ := hp
    refine ⟨_, step_of_stopped_pulse he (.inr hr), ?_⟩
    rw [(runState_eq_halted_iff s).mp hr, Bool.not_true, Bool.and_false, renderThenClear_false]
    rfl
  · have hp' : ∀ keys rnd brk clr, nextEvent s ≠ .pulse keys rnd brk clr :=
      fun keys rnd brk clr he => hp ⟨keys, rnd, brk, clr, he⟩
    exact ⟨_, takeEvent_of_halted (s := beginEvent s) hr hp', rfl⟩

/-! ### OutOfBoundsAccess (R336) -/

/-- The fetch fault (R336): the latch records the address alone, and `pc` stays. -/
theorem raiseFetchFault_frame (s : State) : raiseFetchFault s =
    { s with cause := .outOfBoundsAccess, faultPc := s.pc, halt := true } := by
  simp [enterFault, Cause.fatal, Cause.recoverable]

/-- A pulse whose fetch is out of bounds is the fetch fault and then the render. -/
theorem step_of_fetch_outOfBounds {s : State} {keys : BitVec 16} {rnd : Byte} {clr : Bool}
    (he : nextEvent s = .pulse keys rnd false clr) (hr : runState s = .running) (hb : fetchOutOfBounds s = true) :
    step s = .next (renderThenClear clr (raiseFetchFault (latchInputs keys rnd (beginEvent s)))) := by
  obtain ⟨-, -, hwait⟩ := (runState_eq_running_iff s).mp hr
  have htick : underlyingTick keys rnd (beginEvent s) =
      .next (raiseFetchFault (latchInputs keys rnd (beginEvent s))) :=
    calc underlyingTick keys rnd (beginEvent s)
      _ = runningTick (latchInputs keys rnd (beginEvent s)) := if_neg (by simp [hwait])
      _ = .next (raiseFetchFault (latchInputs keys rnd (beginEvent s))) := if_pos hb
  rw [step_of_ticking_pulse he (by simp [hr]) (by simp [hr]), htick, renderAfter]

/-- A skip that is taken past the end of memory is the fault (R157, R336). -/
theorem skipIf_of_outOfBounds {s : State} {c : Bool} (hf : s.cfg.pcOverflow = .fault) (hpc : 0x1000 ≤ s.pc.toNat + 2)
    (hc : c = true) : skipIf c s = haltedBy .outOfBoundsAccess s :=
  (if_pos hc).trans (goTo_of_outOfBounds ⟨hf, hpc⟩)

/-- An instruction raises a fault, which is OutOfBoundsAccess only under `PC_OVERFLOW = fault`, or leaves CAUSE and the
parameters as they are. -/
theorem effect_cause {s t : State} {op : Op} (h : Effect s op t) :
    (∃ c, t = raiseFault c s ∧ (c = .outOfBoundsAccess → s.cfg.pcOverflow = .fault)) ∨
      (t.cfg = s.cfg ∧ t.cause = s.cause) := by
  cases h with
  | faults _ _ _ ho => exact .inl ⟨_, rfl, ho⟩
  | regs _ x out => rw [writeBack_frame]; exact .inr ⟨rfl, rfl⟩
  | stores i x hu =>
    rw [advanceI_frame, storeRegs_frame hu]; exact .inr ⟨rfl, rfl⟩
  | loads i x hu =>
    rw [advanceI_frame, loadRegs_frame hu]; exact .inr ⟨rfl, rfl⟩
  | jumps | pushes | pops | index | digits | delay | sound | waits | clears | draws => exact .inr ⟨rfl, rfl⟩

/-- `PC_OVERFLOW` is `wrap` and CAUSE is not OutOfBoundsAccess: what every step keeps. -/
def WrapsWithoutFault (s : State) : Prop := s.cfg.pcOverflow = .wrap ∧ s.cause ≠ .outOfBoundsAccess

theorem wrapsWithoutFault_of_exec {i : Instr} {s t : State} (hs : WrapsWithoutFault s) (h : exec i s = .next t) :
    WrapsWithoutFault t := by
  obtain ⟨hwrap, hcause⟩ := hs
  rcases effect_cause (exec_effect h) with ⟨c, rfl, ho⟩ | ⟨hcfg, hc⟩
  · exact ⟨hwrap, fun hc => nomatch hwrap.symm.trans (ho hc)⟩
  · exact ⟨hcfg ▸ hwrap, hc ▸ hcause⟩

theorem wrapsWithoutFault_of_waitingTick {s : State} (keys : BitVec 16) (hs : WrapsWithoutFault s) :
    WrapsWithoutFault (waitingTick keys s) := by
  unfold waitingTick
  rcases captureKey_cases { s with key := keys } with ⟨-, e⟩ | ⟨k, -, e⟩ <;> rw [e] <;> exact hs

/-- No part of a step raises OutOfBoundsAccess under `wrap`: the fetch is in bounds, and the other faults of the step have
causes of their own. -/
theorem wrapsWithoutFault_of_step {s t : State} (hs : WrapsWithoutFault s) (h : step s = .next t) :
    WrapsWithoutFault t := by
  refine step_keeps (P := WrapsWithoutFault) (begin := fun _ hp => hp) (latch := fun _ _ _ hp => hp)
    (word := fun _ _ hp => hp) (fetchFault := fun s ho ⟨hwrap, _⟩ => ?_)
    (decodeFault := fun _ _ ⟨hwrap, _⟩ => ⟨hwrap, nofun⟩)
    (brk := fun _ _ _ ⟨hwrap, _⟩ => ⟨hwrap, nofun⟩) (run := fun _ _ _ _ hp he => wrapsWithoutFault_of_exec hp he)
    (timers := fun _ _ hp => hp) (wait := fun _ k hp => wrapsWithoutFault_of_waitingTick k hp)
    (render := fun _ _ hp => hp) (resumed := fun _ hp => hp) (traced := fun _ hp => hp) hs h
  simp [fetchOutOfBounds, hwrap] at ho

/-- Settles O43: the fetch, the taken skips and JP V0 past the end of memory, and the absence of the cause under `wrap`. -/
theorem pcPastTheEndFaultsInThreePlaces : Obligations.PcPastTheEndFaultsInThreePlaces := by
  refine ⟨fun s keys rnd clr he hr hf hpc => ?_, fun s x y h kk a b hf hpc ha hb => ?_, fun s nnn b hf hb hpc => ?_,
    fun s t hwrap h hcause => (wrapsWithoutFault_of_step ⟨hwrap, hcause⟩ h).2⟩
  · have hout : fetchOutOfBounds s = true := by simp [fetchOutOfBounds, hf, hpc]
    refine ⟨_, step_of_fetch_outOfBounds he hr hout, ?_⟩
    rw [raiseFetchFault_frame]
    rfl
  · have taken : ∀ {c}, c = true → Host.Outcome.next (skipIf c s) = (.next (haltedBy .outOfBoundsAccess s) : Result) :=
      fun hc => congrArg Host.Outcome.next (skipIf_of_outOfBounds hf hpc hc)
    rw [← keyDown_eq, exec_seVxKk_of_readV kk ha, exec_sneVxKk_of_readV kk ha, exec_seVxVy_of_readV h ha hb,
      exec_sneVxVy_of_readV h ha hb, exec_skp_of_readV ha, exec_sknp_of_readV ha]
    exact ⟨fun e => taken (beq_iff_eq.mpr e), fun e => taken (bne_iff_ne.mpr e), fun e => taken (beq_iff_eq.mpr e),
      fun e => taken (bne_iff_ne.mpr e), taken, fun e => taken (by rw [e]; rfl)⟩
  · rw [exec_jpV0_of_readV nnn hb, goTo_of_outOfBounds ⟨hf, hpc⟩]

end Sys2Proof.Machine
end

section
/-! PROOFS. The round trips of the encoding (spec/30_encoding.md): an instruction is read back from its word and from
its bytes, and a word that decodes is put together again from the bits its row compares and the operands its format
names. -/

namespace Sys2Proof

open Laws

/-! ### From an instruction to its word and back -/

/-- Every instruction's word matches the row of its operation. -/
theorem rowMatch_encode : ∀ i : Instr, RowMatch.Statement i
  | .cls h => RowMatch.cls h
  | .ret h => RowMatch.ret h
  | .jp nnn => RowMatch.jp nnn
  | .call nnn => RowMatch.call nnn
  | .seVxKk x kk => RowMatch.seVxKk x kk
  | .sneVxKk x kk => RowMatch.sneVxKk x kk
  | .seVxVy x y h => RowMatch.seVxVy x y h
  | .ldVxKk x kk => RowMatch.ldVxKk x kk
  | .addVxKk x kk => RowMatch.addVxKk x kk
  | .ldVxVy x y => RowMatch.ldVxVy x y
  | .orVxVy x y => RowMatch.orVxVy x y
  | .andVxVy x y => RowMatch.andVxVy x y
  | .xorVxVy x y => RowMatch.xorVxVy x y
  | .addVxVy x y => RowMatch.addVxVy x y
  | .subVxVy x y => RowMatch.subVxVy x y
  | .shrVxVy x y => RowMatch.shrVxVy x y
  | .subnVxVy x y => RowMatch.subnVxVy x y
  | .shlVxVy x y => RowMatch.shlVxVy x y
  | .sneVxVy x y h => RowMatch.sneVxVy x y h
  | .ldI nnn => RowMatch.ldI nnn
  | .jpV0 nnn => RowMatch.jpV0 nnn
  | .rndVxKk x kk => RowMatch.rndVxKk x kk
  | .drw x y n => RowMatch.drw x y n
  | .skp x => RowMatch.skp x
  | .sknp x => RowMatch.sknp x
  | .ldVxDt x => RowMatch.ldVxDt x
  | .ldVxK x => RowMatch.ldVxK x
  | .ldDtVx x => RowMatch.ldDtVx x
  | .ldStVx x => RowMatch.ldStVx x
  | .addIVx x => RowMatch.addIVx x
  | .ldFVx x => RowMatch.ldFVx x
  | .ldBVx x => RowMatch.ldBVx x
  | .ldMemVx x => RowMatch.ldMemVx x
  | .ldVxMem x => RowMatch.ldVxMem x

theorem decodeWord_encode (i : Instr) : decodeWord (encode i) = some i :=
  decodeWord_of_encode_eq (rowMatch_encode i) rfl

/-- The two bytes of a word make the word again (R64). -/
theorem wordOf_hiByte_loByte (w : Word) : wordOf (hiByte w) (loByte w) = w :=
  (BitVec.extractLsb'_append_extractLsb'_eq_extractLsb' (x := w) (start₁ := 0) (len₁ := 8) (start₂ := 8) (len₂ := 8)
    rfl).trans BitVec.extractLsb'_eq_self

/-- The byte decoder reads one word and leaves the bytes after it. -/
theorem decodeBytes_of_decodeWord {hi lo : Byte} {i : Instr} (rest : List Byte)
    (h : decodeWord (wordOf hi lo) = some i) : decodeBytes (hi :: lo :: rest) = .ok (i, rest) := by
  simp only [decodeBytes, h]

/-- Settles O2: the word matches its instruction's row, and its bytes make the word again. -/
theorem decodeOfEncodeGivesBack : Obligations.DecodeOfEncodeGivesBack := by
  refine fun i rest => ⟨decodeWord_encode i, decodeBytes_of_decodeWord rest ?_⟩
  rw [wordOf_hiByte_loByte, decodeWord_encode]

/-! ### From a word to its instruction and back -/

@[simp] theorem fieldsOf_formatNNN_cls (c : Nibble) (nnn : Addr) : (fieldsOf (formatNNN c nnn)).cls = c :=
  BitVec.extractLsb'_append_eq_left

@[simp] theorem fieldsOf_formatXKK_cls (c x : Nibble) (kk : Byte) : (fieldsOf (formatXKK c x kk)).cls = c :=
  (BitVec.extractLsb'_append_eq_of_le (by decide)).trans BitVec.extractLsb'_append_eq_left

@[simp] theorem fieldsOf_formatXYN_cls (c x y n : Nibble) : (fieldsOf (formatXYN c x y n)).cls = c :=
  ((BitVec.extractLsb'_append_eq_of_le (by decide)).trans (BitVec.extractLsb'_append_eq_of_le (by decide))).trans
    BitVec.extractLsb'_append_eq_left

/-- A word in the layout with a byte is its class, its second nibble and its low byte. -/
theorem formatXKK_fieldsOf (w : Word) : formatXKK (fieldsOf w).cls (fieldsOf w).x (fieldsOf w).kk = w := by
  have high : (fieldsOf w).cls ++ (fieldsOf w).x = w.extractLsb' 8 8 :=
    BitVec.extractLsb'_append_extractLsb'_eq_extractLsb' rfl
  rw [formatXKK, high]
  exact wordOf_hiByte_loByte w

/-- A word in the layout with four nibbles. -/
theorem formatXYN_fieldsOf (w : Word) :
    formatXYN (fieldsOf w).cls (fieldsOf w).x (fieldsOf w).y (fieldsOf w).n = w := by
  have high : (fieldsOf w).cls ++ (fieldsOf w).x = w.extractLsb' 8 8 :=
    BitVec.extractLsb'_append_extractLsb'_eq_extractLsb' rfl
  have middle : w.extractLsb' 8 8 ++ (fieldsOf w).y = w.extractLsb' 4 12 :=
    BitVec.extractLsb'_append_extractLsb'_eq_extractLsb' rfl
  rw [formatXYN, high, middle]
  exact (BitVec.extractLsb'_append_extractLsb'_eq_extractLsb' rfl).trans BitVec.extractLsb'_eq_self

section Masks

variable {w : Word} (c k : Nibble) (kk : Byte)

/-- The class mask compares the class. -/
theorem cls_of_classMask (h : w &&& 0xF000 = formatNNN c 0) : (fieldsOf w).cls = c := by
  rw [and_classMask] at h
  simpa using congrArg (fun v => (fieldsOf v).cls) h

theorem formatNNN_of_classMask (h : w &&& 0xF000 = formatNNN c 0) : formatNNN c (fieldsOf w).nnn = w := by
  rw [← cls_of_classMask c h, formatNNN_fieldsOf]

theorem formatXKK_of_classMask (h : w &&& 0xF000 = formatNNN c 0) :
    formatXKK c (fieldsOf w).x (fieldsOf w).kk = w := by
  rw [← cls_of_classMask c h, formatXKK_fieldsOf]

theorem formatXYN_of_classMask (h : w &&& 0xF000 = formatNNN c 0) :
    formatXYN c (fieldsOf w).x (fieldsOf w).y (fieldsOf w).n = w := by
  rw [← cls_of_classMask c h, formatXYN_fieldsOf]

/-- The mask 0xF0FF compares the class and the low byte. -/
theorem formatXKK_of_byteMask (h : w &&& 0xF0FF = formatXKK c 0 kk) : formatXKK c (fieldsOf w).x kk = w := by
  rw [← formatXKK_fieldsOf w, RowMatch.formatXKK_mask_low] at h
  have hc : (fieldsOf w).cls = c := by simpa using congrArg (fun v => (fieldsOf v).cls) h
  have hk : (fieldsOf w).kk = kk := by simpa using congrArg (fun v => (fieldsOf v).kk) h
  rw [← hc, ← hk, formatXKK_fieldsOf]

/-- The mask 0xF00F compares the class and the low nibble. -/
theorem formatXYN_of_nibbleMask (h : w &&& 0xF00F = formatXYN c 0 0 k) :
    formatXYN c (fieldsOf w).x (fieldsOf w).y k = w := by
  rw [← formatXYN_fieldsOf w, RowMatch.formatXYN_mask_low] at h
  have hc : (fieldsOf w).cls = c := by simpa using congrArg (fun v => (fieldsOf v).cls) h
  have hk : (fieldsOf w).n = k := by simpa using congrArg (fun v => (fieldsOf v).n) h
  rw [← hc, ← hk, formatXYN_fieldsOf]

end Masks

/-- The bits a row compares and the operands its format takes from the word are all of the word, row by row of
the map of R94. -/
theorem encode_assemble_of_row {w : Word} : ∀ row ∈ opcodeMap, w &&& row.mask = row.pattern →
    encode (assemble (fieldsOf w) row.op) = w := by
  simp only [opcodeMap, opcodeMapLow, opcodeMapHigh, List.cons_append, List.nil_append, List.forall_mem_cons]
  exact ⟨formatXKK_of_byteMask 0x0 0xE0, formatXKK_of_byteMask 0x0 0xEE,
    formatNNN_of_classMask 0x1, formatNNN_of_classMask 0x2, formatXKK_of_classMask 0x3, formatXKK_of_classMask 0x4,
    formatXYN_of_classMask 0x5, formatXKK_of_classMask 0x6, formatXKK_of_classMask 0x7,
    formatXYN_of_nibbleMask 0x8 0x0, formatXYN_of_nibbleMask 0x8 0x1, formatXYN_of_nibbleMask 0x8 0x2,
    formatXYN_of_nibbleMask 0x8 0x3, formatXYN_of_nibbleMask 0x8 0x4, formatXYN_of_nibbleMask 0x8 0x5,
    formatXYN_of_nibbleMask 0x8 0x6, formatXYN_of_nibbleMask 0x8 0x7, formatXYN_of_nibbleMask 0x8 0xE,
    formatXYN_of_classMask 0x9, formatNNN_of_classMask 0xA, formatNNN_of_classMask 0xB, formatXKK_of_classMask 0xC,
    formatXYN_of_classMask 0xD,
    formatXKK_of_byteMask 0xE 0x9E, formatXKK_of_byteMask 0xE 0xA1,
    formatXKK_of_byteMask 0xF 0x07, formatXKK_of_byteMask 0xF 0x0A, formatXKK_of_byteMask 0xF 0x15,
    formatXKK_of_byteMask 0xF 0x18, formatXKK_of_byteMask 0xF 0x1E, formatXKK_of_byteMask 0xF 0x29,
    formatXKK_of_byteMask 0xF 0x33, formatXKK_of_byteMask 0xF 0x55, formatXKK_of_byteMask 0xF 0x65,
    fun _ h => nomatch h⟩

/-- Settles O3: the word matches the row of the operation that the dispatch selects. -/
theorem encodeOfDecodeGivesBack : Obligations.EncodeOfDecodeGivesBack := by
  intro w i h
  obtain ⟨op, hop, rfl⟩ := Option.map_eq_some_iff.mp h
  obtain ⟨row, hrow, rfl, hmatch⟩ := (dispatch_eq_some_iff w op).mp hop
  exact encode_assemble_of_row row hrow hmatch

/-! ### Words of the spec (95_test_vectors.md section 2.1) -/

/-- Settles O1: closed words, one by one. -/
theorem wordsOfTheSpecDecode : Obligations.WordsOfTheSpecDecode := by
  unfold Obligations.WordsOfTheSpecDecode
  decide

end Sys2Proof
end

section
/-! PROOFS. What an instruction leaves unchanged (spec/10_state.md, spec/20_memory.md, spec/60_exceptions.md R339): the
frames of the shapes of `Effect`, read off one field or one group of fields at a time. -/

namespace Sys2Proof.Machine

section Effects

variable {s t : State} {op : Op}

/-! ### The control state and the latch -/

/-- No shape writes SUSP, TRACE, the inputs, the trace port or the parameters (R342). -/
theorem effect_control (h : Effect s op t) : t.susp = s.susp ∧ t.trace = s.trace ∧ t.key = s.key ∧ t.rnd = s.rnd ∧
    t.traceOut = s.traceOut ∧ t.cfg = s.cfg := by
  cases h with
  | regs _ x out => rw [writeBack_frame]; simp
  | faults _ _ hr => simp [hr]
  | stores i x hu => rw [advanceI_frame, storeRegs_frame hu]; simp
  | loads i x hu => rw [advanceI_frame, loadRegs_frame hu]; simp
  | jumps | pushes | pops | index | digits | delay | sound | waits | clears | draws =>
    exact ⟨rfl, rfl, rfl, rfl, rfl, rfl⟩

/-- The latch and HALT are written by the fatal faults alone, which write nothing else (R330, R339, R341). -/
theorem effect_latch (h : Effect s op t) : (op ∈ faultOps ∧ ∃ c, c.fatal = true ∧ t = haltedBy c s) ∨
    t.cause = s.cause ∧ t.faultOpcode = s.faultOpcode ∧ t.faultPc = s.faultPc ∧ t.halt = s.halt := by
  cases h with
  | faults hop hc => exact .inl ⟨hop, _, hc, raiseFault_of_fatal s hc⟩
  | regs _ x out => rw [writeBack_frame]; simp
  | stores i x hu => rw [advanceI_frame, storeRegs_frame hu]; simp
  | loads i x hu => rw [advanceI_frame, loadRegs_frame hu]; simp
  | jumps | pushes | pops | index | digits | delay | sound | waits | clears | draws => exact .inr ⟨rfl, rfl, rfl, rfl⟩

/-! ### Memory, the stack and I -/

theorem effect_mem (h : Effect s op t) (hop : op ∉ [Op.ldBVx, .ldMemVx]) : t.mem = s.mem := by
  cases h with
  | digits | stores => simp at hop
  | regs _ x out => rw [writeBack_frame]
  | loads i x hu => rw [advanceI_frame, loadRegs_frame hu]
  | jumps | faults | pushes | pops | index | delay | sound | waits | clears | draws => rfl

theorem effect_stack (h : Effect s op t) (hop : op ∉ [Op.call, .ret]) : t.stack = s.stack ∧ t.sp = s.sp := by
  cases h with
  | pushes | pops => simp at hop
  | regs _ x out => rw [writeBack_frame]; simp
  | stores i x hu => rw [advanceI_frame, storeRegs_frame hu]; simp
  | loads i x hu => rw [advanceI_frame, loadRegs_frame hu]; simp
  | jumps | faults | index | digits | delay | sound | waits | clears | draws => exact ⟨rfl, rfl⟩

theorem effect_index (h : Effect s op t) (hop : op ∉ [Op.ldI, .addIVx, .ldFVx, .ldMemVx, .ldVxMem]) :
    t.i = s.i ∧ t.iWritten = s.iWritten := by
  cases h with
  | index hi => exact absurd (List.mem_append_left [Op.ldMemVx, .ldVxMem] hi) hop
  | stores | loads => simp at hop
  | regs _ x out => rw [writeBack_frame]; simp
  | jumps | faults | pushes | pops | digits | delay | sound | waits | clears | draws => exact ⟨rfl, rfl⟩

/-! ### The display, the timers and the key wait -/

theorem effect_display (h : Effect s op t) (hop : op ∉ [Op.cls, .drw]) : t.fb = s.fb ∧ t.dirty = s.dirty := by
  cases h with
  | clears | draws => simp at hop
  | regs _ x out => rw [writeBack_frame]; simp
  | stores i x hu => rw [advanceI_frame, storeRegs_frame hu]; simp
  | loads i x hu => rw [advanceI_frame, loadRegs_frame hu]; simp
  | jumps | faults | pushes | pops | index | digits | delay | sound | waits => exact ⟨rfl, rfl⟩

theorem effect_dt (h : Effect s op t) (hop : op ≠ .ldDtVx) : t.dt = s.dt := by
  cases h with
  | delay => exact absurd rfl hop
  | regs _ x out => rw [writeBack_frame]
  | stores i x hu => rw [advanceI_frame, storeRegs_frame hu]
  | loads i x hu => rw [advanceI_frame, loadRegs_frame hu]
  | jumps | faults | pushes | pops | index | digits | sound | waits | clears | draws => rfl

theorem effect_st (h : Effect s op t) (hop : op ≠ .ldStVx) : t.st = s.st := by
  cases h with
  | sound => exact absurd rfl hop
  | regs _ x out => rw [writeBack_frame]
  | stores i x hu => rw [advanceI_frame, storeRegs_frame hu]
  | loads i x hu => rw [advanceI_frame, loadRegs_frame hu]
  | jumps | faults | pushes | pops | index | digits | delay | waits | clears | draws => rfl

theorem effect_wait (h : Effect s op t) (hop : op ≠ .ldVxK) : t.waitK = s.waitK ∧ t.waitX = s.waitX := by
  cases h with
  | waits => exact absurd rfl hop
  | regs _ x out => rw [writeBack_frame]; simp
  | stores i x hu => rw [advanceI_frame, storeRegs_frame hu]; simp
  | loads i x hu => rw [advanceI_frame, loadRegs_frame hu]; simp
  | jumps | faults | pushes | pops | index | digits | delay | sound | clears | draws => exact ⟨rfl, rfl⟩

/-! ### The registers and `pc` -/

theorem effect_regs (h : Effect s op t) (hop : op ∉ regOps ++ [.ldVxMem, .drw]) : KeepsRegs s t (fun _ => False) := by
  cases h with
  | regs hr => exact absurd (List.mem_append_left _ hr) hop
  | loads | draws => simp at hop
  | stores i x hu => intro r _; rw [advanceI_frame, storeRegs_frame hu]; exact ⟨rfl, rfl⟩
  | jumps | faults | pushes | pops | index | digits | delay | sound | waits | clears => exact fun _ _ => ⟨rfl, rfl⟩

/-- The control flow family (spec/41_control_flow.md). -/
def controlFlowOps : List Op := [.ret, .jp, .call, .jpV0, .seVxKk, .sneVxKk, .seVxVy, .sneVxVy, .skp, .sknp]

theorem jumpOps_subset_controlFlowOps : jumpOps ⊆ controlFlowOps := by decide

theorem effect_pc (h : Effect s op t) (hop : op ∉ controlFlowOps) : t.pc = s.pc := by
  cases h with
  | jumps hj => exact absurd (jumpOps_subset_controlFlowOps hj) hop
  | pushes | pops => simp [controlFlowOps] at hop
  | regs _ x out => rw [writeBack_frame]
  | stores i x hu => rw [advanceI_frame, storeRegs_frame hu]
  | loads i x hu => rw [advanceI_frame, loadRegs_frame hu]
  | faults | index | digits | delay | sound | waits | clears | draws => rfl

end Effects

/-- The bytes of a state are those of its memory, for the same font. -/
theorem byteAt_congr {s t : State} (hm : t.mem = s.mem) (hc : t.cfg = s.cfg) (a : Addr) : byteAt t a = byteAt s a := by
  simp only [byteAt, hm, hc]

/-- Settles O57: the writers of memory, of the stack and of I among the shapes. -/
theorem onlyNamedInstructionsWriteMemoryStackAndIndex : Obligations.OnlyNamedInstructionsWriteMemoryStackAndIndex := by
  intro i s t h
  have he := exec_effect h
  obtain ⟨-, -, -, -, -, hcfg⟩ := effect_control he
  exact ⟨fun hop => ⟨effect_mem he hop, fun a _ => byteAt_congr (effect_mem he hop) hcfg a⟩, effect_stack he,
    effect_index he⟩

/-- Settles O58: the writers of the display, of the timers and of the wait among the shapes. -/
theorem onlyNamedInstructionsWriteDisplayAndTimers : Obligations.OnlyNamedInstructionsWriteDisplayAndTimers :=
  fun _ _ _ h =>
    ⟨effect_display (exec_effect h), effect_dt (exec_effect h), effect_st (exec_effect h), effect_wait (exec_effect h)⟩

/-- Settles O59: the writers of the registers, of `pc` and of the latch among the shapes, and what no shape writes. -/
theorem onlyNamedInstructionsWriteRegistersAndControl : Obligations.OnlyNamedInstructionsWriteRegistersAndControl := by
  intro i s t h
  have he := exec_effect h
  obtain ⟨hsusp, htrace, hkey, hrnd, -, hcfg⟩ := effect_control he
  refine ⟨effect_regs he, effect_pc he, fun hop => ?_, hsusp, htrace, hkey, hrnd, hcfg⟩
  have hnofault : i.op ∉ faultOps := hop
  exact (effect_latch he).resolve_left fun ⟨hf, _⟩ => hnofault hf

/-- Settles O60: HALT is written by the fatal faults alone. -/
theorem faultEntryIsPrecise : Obligations.FaultEntryIsPrecise := by
  intro i s t hrunning h hhalt
  rcases effect_latch (exec_effect h) with ⟨-, c, hc, rfl⟩ | ⟨-, -, -, hsame⟩
  · exact ⟨c, hc, rfl, fun _ _ => ⟨rfl, rfl⟩, fun _ _ => rfl⟩
  · exact nomatch hhalt.symm.trans (hsame.trans hrunning)

end Sys2Proof.Machine
end

section
/-! PROOFS. What every step keeps (spec/10_state.md R27, R28, R35, R39, spec/60_exceptions.md R340, R341): the
parameters, canonical memory and the bounds of the stack, the agreement of the latch with the run state, and the written
bits. -/

namespace Sys2Proof.Machine

/-- The waiting tick touches the register it captures into, the wait, the key levels, the timers and the tone edges. -/
theorem waitingTick_frame (keys : BitVec 16) (s : State) : waitingTick keys s =
    { s with v := (waitingTick keys s).v, vWritten := (waitingTick keys s).vWritten,
             waitK := (waitingTick keys s).waitK, key := keys, dt := countDown s.dt, st := countDown s.st,
             playTone := (waitingTick keys s).playTone, stopTone := (waitingTick keys s).stopTone } := by
  unfold waitingTick
  rcases captureKey_cases { s with key := keys } with ⟨-, e⟩ | ⟨k, -, e⟩ <;> rw [e] <;> rfl

/-! ### The parameters -/

theorem exec_cfg {i : Instr} {s t : State} (h : exec i s = .next t) : t.cfg = s.cfg := by
  obtain ⟨-, -, -, -, -, hcfg⟩ := effect_control (exec_effect h)
  exact hcfg

theorem step_cfg {s t : State} (h : step s = .next t) : t.cfg = s.cfg :=
  step_keeps (P := fun u => u.cfg = s.cfg) (begin := fun _ hp => hp) (latch := fun _ _ _ hp => hp)
    (word := fun _ _ hp => hp) (fetchFault := fun _ _ hp => hp) (decodeFault := fun _ _ hp => hp)
    (brk := fun _ _ _ hp => hp) (run := fun _ _ _ _ hp he => (exec_cfg he).trans hp) (timers := fun _ _ hp => hp)
    (wait := fun _ _ hp => by rw [waitingTick_frame]; exact hp) (render := fun _ _ hp => hp) (resumed := fun _ hp => hp)
    (traced := fun _ hp => hp) rfl h

/-! ### Canonical memory and the stack (R27, R28, R60) -/

theorem storeRun_wf {s : State} (i : Addr) (vals : Nat → Byte) (n : Nat) (h : Memory.wf s.cfg.font s.mem) :
    Memory.wf (storeRun i vals n s).cfg.font (storeRun i vals n s).mem :=
  repeatUpTo_keeps (P := fun u : State => Memory.wf u.cfg.font u.mem) (fun _ _ hu => storeByte_wf hu _ _) n h

theorem storeRegs_wf {s t : State} {i : Addr} {n : Nat} (h : Memory.wf s.cfg.font s.mem)
    (ht : storeRegs i n s = .ok t) : Memory.wf t.cfg.font t.mem := by
  refine forUpTo_keeps (P := fun u : State => Memory.wf u.cfg.font u.mem) (fun k u v hu hv => ?_) h ht
  obtain ⟨b, -, rfl⟩ := readMap_ok hv
  exact storeByte_wf hu _ _

/-- A push stays below the capacity and a pop goes down; memory is written byte by byte. -/
theorem inv_of_effect {s t : State} {op : Op} (h : Effect s op t) (hs : s.Inv) : t.Inv := by
  obtain ⟨hmem, hlen, hsp⟩ := hs
  cases h with
  | pushes target hroom => exact ⟨hmem, (List.length_set ..).trans hlen, Nat.lt_of_le_of_ne hsp hroom⟩
  | pops => exact ⟨hmem, hlen, (Nat.sub_le ..).trans hsp⟩
  | digits a i => exact ⟨storeRun_wf i (bcdDigit a) 3 hmem, hlen, hsp⟩
  | stores i x hu =>
    have hwf := storeRegs_wf hmem hu
    rw [storeRegs_frame hu] at hwf ⊢
    rw [advanceI_frame]
    exact ⟨hwf, hlen, hsp⟩
  | loads i x hu => rw [advanceI_frame, loadRegs_frame hu]; exact ⟨hmem, hlen, hsp⟩
  | regs _ x out => rw [writeBack_frame]; exact ⟨hmem, hlen, hsp⟩
  | jumps | faults | index | delay | sound | waits | clears | draws => exact ⟨hmem, hlen, hsp⟩

theorem step_inv {s t : State} (hs : s.Inv) (h : step s = .next t) : t.Inv :=
  step_keeps (P := State.Inv) (begin := fun _ hp => hp) (latch := fun _ _ _ hp => hp) (word := fun _ _ hp => hp)
    (fetchFault := fun _ _ hp => hp) (decodeFault := fun _ _ hp => hp) (brk := fun _ _ _ hp => hp)
    (run := fun _ _ _ _ hp he => inv_of_effect (exec_effect he) hp) (timers := fun _ _ hp => hp)
    (wait := fun _ _ hp => by rw [waitingTick_frame]; exact hp) (render := fun _ _ hp => hp) (resumed := fun _ hp => hp)
    (traced := fun _ hp => hp) hs h

/-- Settles O53: no part of a step breaks the canonical form or the bounds of the stack, and none writes a parameter. -/
theorem stepKeepsMemoryAndStackInvariant : Obligations.StepKeepsMemoryAndStackInvariant :=
  fun _ _ hs h => ⟨step_inv hs h, step_cfg h⟩

/-! ### The latch and the run state (R35, R340, R341) -/

/-- An instruction leaves the latch and the run state alone, or raises a fatal fault. -/
theorem causeInv_of_effect {s t : State} {op : Op} (h : Effect s op t) (hs : s.CauseInv) : t.CauseInv := by
  rcases effect_latch h with ⟨-, c, hc, rfl⟩ | ⟨hcause, -, -, hhalt⟩
  · exact ⟨fun _ => hc, fun _ hrunning => nomatch hrunning⟩
  · obtain ⟨hsusp, -⟩ := effect_control h
    rw [State.CauseInv, hcause, hhalt, hsusp]
    exact hs

/-- A fault that suspends a core that is not halted is recoverable, so the latch explains it. -/
theorem causeInv_of_suspends {s : State} {c : Cause} (hc : c.recoverable = true) (hhalt : s.halt = false) :
    State.CauseInv { s with cause := c, susp := true } :=
  ⟨fun h => (nomatch h.symm.trans hhalt), fun _ _ => hc⟩

/-- Settles O54: each part of a step that writes HALT, SUSP or CAUSE keeps them in agreement. -/
theorem stepKeepsCauseInvariant : Obligations.StepKeepsCauseInvariant := by
  intro s t hs h
  refine step_keeps (P := State.CauseInv) (begin := fun _ hp => hp) (latch := fun _ _ _ hp => hp)
    (word := fun _ _ hp => hp) (fetchFault := fun s _ _ => ?_) (decodeFault := fun s hhalt _ => ?_)
    (brk := fun s hhalt _ _ => ?_) (run := fun _ _ _ _ hp he => causeInv_of_effect (exec_effect he) hp)
    (timers := fun _ _ hp => hp) (wait := fun _ _ hp => by rw [waitingTick_frame]; exact hp)
    (render := fun _ _ hp => hp) (resumed := fun s hp => ?_) (traced := fun _ hp => hp) hs h
  · rw [raiseFetchFault_frame]
    exact ⟨fun _ => rfl, fun _ hrunning => nomatch hrunning⟩
  · rw [raiseFault_decodeFault]
    exact causeInv_of_suspends (s := { s with faultOpcode := s.curWord, faultPc := s.curPc }) rfl hhalt
  · rw [enterBreak_frame]
    exact causeInv_of_suspends rfl hhalt
  · exact ⟨hp.1, fun hsusp => nomatch hsusp⟩

/-! ### The written bits (R39) -/

/-- Every written bit of `s` that is set is set in `t`. -/
def KeepsWritten (s t : State) : Prop :=
  (∀ x, vIsWritten s x = true → vIsWritten t x = true) ∧ (s.iWritten = true → t.iWritten = true) ∧
    ∀ a, (byteAt s a).isSome = true → (byteAt t a).isSome = true

theorem KeepsWritten.refl (s : State) : KeepsWritten s s :=
  ⟨fun _ h => h, fun h => h, fun _ h => h⟩

theorem KeepsWritten.trans {s t u : State} (hst : KeepsWritten s t) (htu : KeepsWritten t u) : KeepsWritten s u := by
  obtain ⟨hv, hi, hm⟩ := hst
  obtain ⟨hv', hi', hm'⟩ := htu
  exact ⟨fun x h => hv' x (hv x h), fun h => hi' (hi h), fun a h => hm' a (hm a h)⟩

theorem keepsWritten_setV (s : State) (x : Nibble) (b : Byte) : KeepsWritten s (setV s x b) :=
  ⟨fun y h => by rw [vIsWritten_setV, h, Bool.or_true], fun h => h, fun _ h => h⟩

theorem keepsWritten_setI (s : State) (a : Addr) : KeepsWritten s (setI s a) :=
  ⟨fun _ h => h, fun _ => rfl, fun _ h => h⟩

theorem keepsWritten_storeByte (s : State) (a : Addr) (b : Byte) : KeepsWritten s (storeByte s a b) :=
  ⟨fun _ h => h, fun h => h, fun _ h => byteAt_storeByte_isSome h a b⟩

theorem keepsWritten_writeBack (s : State) (x : Nibble) (out : AluOut) : KeepsWritten s (writeBack s x out) := by
  unfold writeBack
  split
  · exact (keepsWritten_setV s vf _).trans (keepsWritten_setV _ x _)
  · exact keepsWritten_setV s x _

theorem keepsWritten_storeRegs {s t : State} {i : Addr} {n : Nat} (h : storeRegs i n s = .ok t) : KeepsWritten s t := by
  refine forUpTo_keeps (P := KeepsWritten s) (fun k u v hu hv => ?_) (KeepsWritten.refl s) h
  obtain ⟨b, -, rfl⟩ := readMap_ok hv
  exact hu.trans (keepsWritten_storeByte u _ b)

theorem keepsWritten_loadRegs {s t : State} {i : Addr} {n : Nat} (h : loadRegs i n s = .ok t) : KeepsWritten s t := by
  refine forUpTo_keeps (P := KeepsWritten s) (fun k u v hu hv => ?_) (KeepsWritten.refl s) h
  obtain ⟨b, -, rfl⟩ := readMap_ok hv
  exact hu.trans (keepsWritten_setV u _ b)

theorem keepsWritten_advanceI (i : Addr) (x : Nibble) (s : State) : KeepsWritten s (advanceI i x s) := by
  rcases advanceI_cases i x s with ⟨-, e⟩ | ⟨-, e⟩ <;> rw [e]
  · exact keepsWritten_setI s _
  · exact KeepsWritten.refl s

/-- An instruction writes cells; it never takes a written bit away. -/
theorem keepsWritten_of_effect {s t : State} {op : Op} (h : Effect s op t) : KeepsWritten s t := by
  cases h with
  | regs _ x out => exact keepsWritten_writeBack s x out
  | index _ a => exact keepsWritten_setI s a
  | digits a i =>
    exact repeatUpTo_keeps (P := KeepsWritten s) (fun _ u hu => hu.trans (keepsWritten_storeByte u _ _)) 3
      (KeepsWritten.refl s)
  | stores i x hu => exact (keepsWritten_storeRegs hu).trans (keepsWritten_advanceI i x _)
  | loads i x hu => exact (keepsWritten_loadRegs hu).trans (keepsWritten_advanceI i x _)
  | draws d => exact keepsWritten_setV s vf (if d.coll then 1 else 0)
  | jumps | faults | pushes | pops | delay | sound | waits | clears => exact KeepsWritten.refl s

theorem keepsWritten_waitingTick (keys : BitVec 16) (s : State) : KeepsWritten s (waitingTick keys s) := by
  unfold waitingTick
  rcases captureKey_cases { s with key := keys } with ⟨-, e⟩ | ⟨k, -, e⟩ <;> rw [e]
  · exact KeepsWritten.refl s
  · exact keepsWritten_setV s s.waitX (keyCode k)

theorem step_keepsWritten {s t : State} (h : step s = .next t) : KeepsWritten s t :=
  step_keeps (P := KeepsWritten s) (begin := fun _ hp => hp) (latch := fun _ _ _ hp => hp) (word := fun _ _ hp => hp)
    (fetchFault := fun _ _ hp => hp) (decodeFault := fun _ _ hp => hp) (brk := fun _ _ _ hp => hp)
    (run := fun _ _ _ _ hp he => hp.trans (keepsWritten_of_effect (exec_effect he))) (timers := fun _ _ hp => hp)
    (wait := fun _ k hp => hp.trans (keepsWritten_waitingTick k _)) (render := fun _ _ hp => hp)
    (resumed := fun _ hp => hp) (traced := fun _ hp => hp) (KeepsWritten.refl s) h

/-! ### Reads of a written and of an unwritten cell (R39, R62) -/

theorem readV_eq (s : State) (x : Nibble) : readV s x = if vIsWritten s x then .ok (vAt s x)
    else if s.cfg.unwritten = .zero then .ok 0 else .error (.unwrittenRead (.v x)) := by
  unfold readV
  cases vIsWritten s x <;> cases s.cfg.unwritten <;> rfl

theorem readI_eq (s : State) : readI s = if s.iWritten then .ok s.i
    else if s.cfg.unwritten = .zero then .ok 0 else .error (.unwrittenRead .i) := by
  unfold readI
  cases s.iWritten <;> cases s.cfg.unwritten <;> rfl

theorem readMem_of_unwritten {s : State} {a : Addr} (h : byteAt s a = none) :
    readMem s a = if s.cfg.unwritten = .zero then .ok 0 else .error (.unwrittenRead (.mem a)) := by
  unfold readMem
  rw [h]
  cases s.cfg.unwritten <;> rfl

/-- Settles O28: what the three reads answer, and the written bits along a step. -/
theorem readsFollowTheWrittenBits : Obligations.ReadsFollowTheWrittenBits :=
  fun s => ⟨readV_eq s, readI_eq s, fun _ _ => readMem_of_byteAt, fun _ => readMem_of_unwritten,
    fun _ => step_keepsWritten⟩

end Sys2Proof.Machine
end

section
/-! PROOFS. What can end a run (spec/10_state.md R39, spec/60_exceptions.md R337): a failing read of a register, of I
or of a byte of memory, and nothing else. -/

namespace Sys2Proof.Machine

/-- Some operand of `s` reads as the stop `f`. -/
def ReadFails (s : State) (f : Fault) : Prop :=
  (∃ x, readV s x = .error f) ∨ readI s = .error f ∨ ∃ a, readMem s a = .error f

/-- The result is a next state, or the stop of a read of `s`. -/
def StopsByRead (s : State) : Result → Prop
  | .next _ => True
  | .fault f => ReadFails s f
  | .refused _ => False

/-! ### Reads and loops that stop -/

theorem readMap_error {α β : Type} {r : Except Fault α} {k : α → β} {f : Fault} (h : readMap r k = .error f) :
    r = .error f := by
  cases r with
  | ok a => cases h
  | error g => cases h; rfl

/-- A loop that stops has stopped in one of its rounds. -/
theorem forUpTo_error {σ : Type} {body : Nat → σ → Except Fault σ} {s : σ} {f : Fault} : ∀ {n : Nat},
    forUpTo n body s = .error f → ∃ k t, forUpTo k body s = .ok t ∧ body k t = .error f
  | 0, h => by cases h
  | n + 1, h => by
    simp only [forUpTo] at h
    split at h
    · next t ht => exact ⟨n, t, ht, h⟩
    · next g hg => cases h; exact forUpTo_error hg

theorem storeRegs_error {s : State} {i : Addr} {n : Nat} {f : Fault} (h : storeRegs i n s = .error f) :
    ReadFails s f := by
  obtain ⟨k, t, ht, hk⟩ := forUpTo_error h
  have hread := readMap_error hk
  rw [storeRegs_frame ht] at hread
  exact .inl ⟨blockReg k, hread⟩

theorem loadRegs_error {s : State} {i : Addr} {n : Nat} {f : Fault} (h : loadRegs i n s = .error f) :
    ReadFails s f := by
  obtain ⟨k, t, ht, hk⟩ := forUpTo_error h
  have hread := readMap_error hk
  rw [loadRegs_frame ht] at hread
  exact .inr (.inr ⟨ea i k, hread⟩)

theorem drawRows_error {s : State} {i : Addr} {x0 y0 n : Nat} {d : Drawing} {f : Fault}
    (h : drawRows s i x0 y0 n d = .error f) : ReadFails s f := by
  obtain ⟨k, e, -, hk⟩ := forUpTo_error h
  exact .inr (.inr ⟨ea i k, readMap_error hk⟩)

theorem spriteBase_error {s : State} {n : Nat} {f : Fault} (h : spriteBase s n = .error f) : ReadFails s f := by
  unfold spriteBase at h
  split at h
  · cases h
  · exact .inr (.inl h)

/-! ### Instructions and steps -/

section Stops

variable {s : State}

theorem stopsByRead_readThen {α : Type} {r : Except Fault α} {k : α → Result}
    (hr : ∀ f, r = .error f → ReadFails s f) (hk : ∀ a, StopsByRead s (k a)) : StopsByRead s (readThen r k) := by
  cases r with
  | ok a => exact hk a
  | error f => exact hr f rfl

theorem stopsByRead_readV (x : Nibble) {k : Byte → Result} (hk : ∀ a, StopsByRead s (k a)) :
    StopsByRead s (readThen (readV s x) k) :=
  stopsByRead_readThen (fun _ h => .inl ⟨x, h⟩) hk

theorem stopsByRead_readI {k : Addr → Result} (hk : ∀ a, StopsByRead s (k a)) :
    StopsByRead s (readThen (readI s) k) :=
  stopsByRead_readThen (fun _ h => .inr (.inl h)) hk

theorem stopsByRead_aluXY (op : AluOp) (x y : Nibble) : StopsByRead s (aluXY op x y s) :=
  stopsByRead_readV x fun _ => stopsByRead_readV y fun _ => trivial

theorem stopsByRead_aluShift (op : AluOp) (x y : Nibble) : StopsByRead s (aluShift op x y s) :=
  stopsByRead_readV _ fun _ => trivial

/-- Only a failing read stops an instruction, and none is refused. -/
theorem stopsByRead_exec (s : State) (i : Instr) : StopsByRead s (exec i s) := by
  cases i with
  | cls | ret | jp | call | ldVxKk | rndVxKk | ldI | ldVxDt => exact trivial
  | ldVxK x =>
    cases hk : lowestKey s.key with
    | some k => rw [exec_ldVxK_of_key x hk]; exact trivial
    | none => rw [exec_ldVxK_of_no_key x hk]; exact trivial
  | seVxKk x | sneVxKk x | addVxKk x | skp x | sknp x | ldDtVx x | ldStVx x | ldFVx x =>
    exact stopsByRead_readV x fun _ => trivial
  | ldVxVy x y => exact stopsByRead_readV y fun _ => trivial
  | jpV0 => exact stopsByRead_readV 0 fun _ => trivial
  | seVxVy x y | sneVxVy x y => exact stopsByRead_readV x fun _ => stopsByRead_readV y fun _ => trivial
  | orVxVy x y | andVxVy x y | xorVxVy x y | addVxVy x y | subVxVy x y | subnVxVy x y =>
    exact stopsByRead_aluXY _ x y
  | shrVxVy x y | shlVxVy x y => exact stopsByRead_aluShift _ x y
  | addIVx x => exact stopsByRead_readI fun _ => stopsByRead_readV x fun _ => trivial
  | ldBVx x => exact stopsByRead_readV x fun _ => stopsByRead_readI fun _ => trivial
  | ldMemVx x =>
    exact stopsByRead_readI fun _ => stopsByRead_readThen (fun _ => storeRegs_error) fun _ => trivial
  | ldVxMem x =>
    exact stopsByRead_readI fun _ => stopsByRead_readThen (fun _ => loadRegs_error) fun _ => trivial
  | drw x y n =>
    exact stopsByRead_readV x fun _ => stopsByRead_readV y fun _ =>
      stopsByRead_readThen (fun _ => spriteBase_error) fun _ =>
        stopsByRead_readThen (fun _ => drawRows_error) fun _ => trivial

theorem stopsByRead_finishTick (st0 : Byte) {r : Result} (h : StopsByRead s r) : StopsByRead s (finishTick st0 r) := by
  cases r with
  | next t => exact trivial
  | fault f => exact h
  | refused f => exact h

theorem stopsByRead_renderAfter (clr : Bool) {r : Result} (h : StopsByRead s r) :
    StopsByRead s (renderAfter clr r) := by
  cases r with
  | next t => exact trivial
  | fault f => exact h
  | refused f => exact h

theorem fetchWord_error {f : Fault} (h : fetchWord s = .error f) : ReadFails s f := by
  unfold fetchWord at h
  split at h
  · next g hg => cases h; exact .inr (.inr ⟨_, hg⟩)
  · split at h
    · next g hg => cases h; exact .inr (.inr ⟨_, hg⟩)
    · cases h

/-- The word that is executed reads the operands of the state after the fetch, which are those before it. -/
theorem stopsByRead_runWord (s : State) (st0 : Byte) : StopsByRead s (runWord st0 s) := by
  unfold runWord
  split
  · exact trivial
  · exact stopsByRead_finishTick st0 (stopsByRead_exec s _)

theorem stopsByRead_runningTick (s : State) : StopsByRead s (runningTick s) := by
  unfold runningTick
  split
  · exact trivial
  · exact stopsByRead_readThen (fun _ => fetchWord_error) fun w => stopsByRead_runWord (beginWord w s) s.st

theorem stopsByRead_underlyingTick (keys : BitVec 16) (rnd : Byte) (s : State) :
    StopsByRead s (underlyingTick keys rnd s) := by
  unfold underlyingTick
  split
  · exact trivial
  · exact stopsByRead_runningTick (latchInputs keys rnd s)

theorem stopsByRead_pulseTick (keys : BitVec 16) (rnd : Byte) (brk : Bool) (s : State) :
    StopsByRead s (pulseTick keys rnd brk s) := by
  unfold pulseTick
  cases runState s with
  | halted | suspended => exact trivial
  | awaitingKey | running =>
    cases brk with
    | true => exact trivial
    | false => exact stopsByRead_underlyingTick keys rnd s

/-- Only a failing read ends a run, and no step is refused. -/
theorem stopsByRead_step (s : State) : StopsByRead s (step s) := by
  unfold step
  cases nextEvent s with
  | pulse keys rnd brk clr => exact stopsByRead_renderAfter _ (stopsByRead_pulseTick keys rnd brk (beginEvent s))
  | singleStep keys rnd =>
    unfold takeEvent takeSingleStep
    cases runState (beginEvent s) with
    | suspended => exact stopsByRead_underlyingTick keys rnd (beginEvent s)
    | running | awaitingKey | halted => exact trivial
  | resume | enableTrace | memdump | printRegisters => exact trivial

end Stops

/-! ### States whose cells can be read -/

theorem readMem_error {s : State} {a : Addr} {f : Fault} (h : readMem s a = .error f) :
    byteAt s a = none ∧ s.cfg.unwritten = .fault ∧ f = .unwrittenRead (.mem a) := by
  unfold readMem at h
  split at h
  · cases h
  · cases h
  · next hb hu => cases h; exact ⟨hb, hu, rfl⟩

section Readable

variable {s : State}

theorem readV_of_regsReadable (hs : s.RegsReadable) (x : Nibble) : ∃ a, readV s x = .ok a := by
  rw [readV_eq]
  rcases hs with hzero | ⟨hv, -⟩
  · by_cases hx : vIsWritten s x = true
    · exact ⟨_, if_pos hx⟩
    · rw [if_neg hx, if_pos hzero]
      exact ⟨_, rfl⟩
  · exact ⟨_, if_pos (hv x)⟩

theorem readI_of_regsReadable (hs : s.RegsReadable) : ∃ i, readI s = .ok i := by
  rw [readI_eq]
  rcases hs with hzero | ⟨-, hi⟩
  · by_cases hi : s.iWritten = true
    · exact ⟨_, if_pos hi⟩
    · rw [if_neg hi, if_pos hzero]
      exact ⟨_, rfl⟩
  · exact ⟨_, if_pos hi⟩

/-- Where the registers and I can be read, a read that fails is one of memory. -/
theorem readMem_fails_of_regsReadable (hs : s.RegsReadable) {f : Fault} (h : ReadFails s f) :
    ∃ a, readMem s a = .error f := by
  rcases h with ⟨x, hx⟩ | hi | hm
  · obtain ⟨a, ha⟩ := readV_of_regsReadable hs x
    exact nomatch ha.symm.trans hx
  · obtain ⟨a, ha⟩ := readI_of_regsReadable hs
    exact nomatch ha.symm.trans hi
  · exact hm

theorem regsReadable_of_allReadable (hs : s.AllReadable) : s.RegsReadable :=
  hs.imp_right fun ⟨hv, hi, _⟩ => ⟨hv, hi⟩

theorem not_readFails_of_allReadable (hs : s.AllReadable) (f : Fault) : ¬ ReadFails s f := by
  intro h
  obtain ⟨a, ha⟩ := readMem_fails_of_regsReadable (regsReadable_of_allReadable hs) h
  obtain ⟨hnone, hfault, -⟩ := readMem_error ha
  rcases hs with hzero | ⟨-, -, hm⟩
  · exact nomatch hzero.symm.trans hfault
  · have hsome := hm a
    rw [hnone] at hsome
    exact nomatch hsome

/-- A result that only a read could stop is a next state, where no read fails. -/
theorem next_of_allReadable (hs : s.AllReadable) {r : Result} (hr : StopsByRead s r) : ∃ t, r = .next t := by
  cases r with
  | next t => exact ⟨t, rfl⟩
  | fault f => exact absurd hr (not_readFails_of_allReadable hs f)
  | refused f => exact hr.elim

theorem regsReadable_of_step {t : State} (hs : s.RegsReadable) (h : step s = .next t) : t.RegsReadable := by
  obtain ⟨hv, hi, -⟩ := step_keepsWritten h
  exact hs.imp (fun hzero => step_cfg h ▸ hzero) fun ⟨hsv, hsi⟩ => ⟨fun x => hv x (hsv x), hi hsi⟩

end Readable

/-- Settles O55: the written bits are kept, and of the reads that can stop a step only those of memory are left. -/
theorem registerReadsNeverEndARun : Obligations.RegisterReadsNeverEndARun := by
  intro s hs
  have hstops := stopsByRead_step s
  refine ⟨fun t => regsReadable_of_step hs, readV_of_regsReadable hs, readI_of_regsReadable hs, fun f h => ?_,
    fun f h => ?_⟩
  · rw [h] at hstops
    obtain ⟨a, ha⟩ := readMem_fails_of_regsReadable hs hstops
    obtain ⟨-, hfault, hf⟩ := readMem_error ha
    exact ⟨a, hf, hfault⟩
  · rw [h] at hstops
    exact hstops

/-- Settles O56: no read fails, so nothing stops an instruction or a step. -/
theorem everyInstructionIsTotal : Obligations.EveryInstructionIsTotal :=
  fun s hs => ⟨fun i => next_of_allReadable hs (stopsByRead_exec s i), next_of_allReadable hs (stopsByRead_step s)⟩

end Sys2Proof.Machine
end

section
/-! PROOFS. The shifts (spec/42_alu.md R202, R204), the round trips of the stack (spec/41_control_flow.md R154) and of a
register block (spec/43_index_memory.md R246). -/

namespace Sys2Proof.Machine

open Laws

/-! ### The shifts -/

theorem aluShift_of_readV {s : State} {x y : Nibble} {a : Byte} (op : AluOp)
    (ha : readV s (shiftSource s x y) = .ok a) :
    aluShift op x y s = .next (writeBack s x (alu s.cfg op a a s.rnd)) := by
  rw [aluShift, ha, readThen_ok]

/-- Both inputs of the ALU carry the source, so the operand is the source under both values of `SHIFT_SRC_VY`. -/
theorem shiftOperand_self (cfg : Config) (a : Byte) : shiftOperand cfg a a = a := by
  unfold shiftOperand
  split <;> rfl

theorem alu_shr (cfg : Config) (a r : Byte) : alu cfg .shr a a r = ⟨a >>> 1, a.getLsbD 0, true⟩ := by
  rw [alu, shiftOperand_self]

theorem alu_shl (cfg : Config) (a r : Byte) : alu cfg .shl a a r = ⟨a <<< 1, a.getLsbD 7, true⟩ := by
  rw [alu, shiftOperand_self]

theorem byte_shiftRight_one_toNat (a : Byte) : (a >>> 1).toNat = a.toNat / 2 := by
  rw [BitVec.toNat_ushiftRight, Nat.shiftRight_eq_div_pow, Nat.pow_one]

theorem byte_shiftLeft_one_toNat (a : Byte) : (a <<< 1).toNat = 2 * a.toNat % 256 := by
  rw [BitVec.toNat_shiftLeft, Nat.shiftLeft_eq, Nat.pow_one, Nat.mul_comm]

theorem byte_bit0_toNat (a : Byte) : (a.getLsbD 0).toNat = a.toNat % 2 := by
  rw [BitVec.getLsbD, Nat.toNat_testBit, Nat.pow_zero, Nat.div_one]

/-- Above bit 7 a byte has no bit, so its quotient by 128 is that bit. -/
theorem byte_bit7_toNat (a : Byte) : (a.getLsbD 7).toNat = a.toNat / 128 := by
  have := a.isLt
  rw [BitVec.getLsbD, Nat.toNat_testBit]
  omega

/-- Settles O11: each shift of its one source, with the bit that leaves it. -/
theorem shiftsWriteLostBitThenResult : Obligations.ShiftsWriteLostBitThenResult := by
  refine fun s x y a => ⟨decodeWord_of_encode_eq (RowMatch.shrVxVy x y) rfl,
    decodeWord_of_encode_eq (RowMatch.shlVxVy x y) rfl, fun ha => ⟨⟨_, aluShift_of_readV .shr ha, ?_⟩,
      ⟨_, aluShift_of_readV .shl ha, ?_⟩⟩⟩
  · rw [alu_shr, ← byte_shiftRight_one_toNat, ← byte_bit0_toNat]
    exact writesRegAndFlag_writeBack s rfl
  · rw [alu_shl, ← byte_shiftLeft_one_toNat, ← byte_bit7_toNat]
    exact writesRegAndFlag_writeBack s rfl

/-! ### CALL and RET -/

/-- Settles O19: the entry that RET pops is the one CALL wrote below SP. -/
theorem retAfterCallReturns : Obligations.RetAfterCallReturns := by
  intro s t u nnn h ⟨_, hlen, _⟩ hroom hcall hstack hsp
  cases (exec_call_of_sp_ne nnn hroom.ne).symm.trans hcall
  have hsp' : u.sp = s.sp + 1 := hsp
  have hentry : stackAt u (u.sp - 1) = s.pc := by
    rw [hsp', Nat.add_sub_cancel, stackAt_of_stack_set hstack (hlen ▸ hroom), if_pos rfl]
  refine ⟨_, exec_ret_of_sp_ne_zero h (by omega), hentry, ?_⟩
  rw [hsp', Nat.add_sub_cancel]

/-! ### Block store and block load -/

/-- Settles O26: the load reads the bytes that the store has put there, and both leave I past the same last cell. -/
theorem blockLoadAfterStoreGivesBack : Obligations.BlockLoadAfterStoreGivesBack := by
  intro s t u x i vals hi hv hstore hu
  obtain ⟨-, hstores⟩ := blockStoreWritesMemory s x i vals
  obtain ⟨t', ht', hbytes, hinc, -⟩ := hstores hi hv
  cases ht'.symm.trans hstore
  have hcfg : u.cfg = s.cfg := by rw [hu, exec_cfg hstore]
  have hiu : readI u = .ok i := by rw [hu]; rfl
  have hmu : ∀ k ≤ x.toNat, readMem u (ea i k) = .ok (vals k) := fun k hk =>
    readMem_of_byteAt (by rw [hu]; exact hbytes k hk)
  obtain ⟨-, hloads⟩ := blockLoadWritesRegisters u x i vals
  obtain ⟨v, hv', hregs, hinc', -⟩ := hloads hiu hmu
  refine ⟨v, hv', fun k hk => (hregs k hk).1, fun h => BitVec.eq_of_toNat_eq ?_⟩
  rw [(hinc h).1, (hinc' (hcfg ▸ h)).1]

end Sys2Proof.Machine
end

section
/-! PROOFS. The sprite draw (spec/45_display.md R301 to R305): what one draw does, and two draws of the same sprite. -/

namespace Sys2Proof.Machine

open Laws

/-- The rows of a sprite cover what the sprite covers. -/
theorem rowCovers_iff_spriteCovers (bytes : Nat → Byte) (x0 y0 n r c : Nat) :
    (∃ row < n, RowCovers (bytes row) x0 y0 row 8 r c) ↔ SpriteCovers bytes x0 y0 n r c := by
  constructor
  · rintro ⟨row, hrow, hr, hc, rfl, hx, hx', hbit⟩
    refine ⟨hr, hc, Nat.le_add_right .., Nat.add_lt_add_left hrow y0, hx, hx', ?_⟩
    rwa [Nat.add_sub_cancel_left]
  · rintro ⟨hr, hc, hy, hy', hx, hx', hbit⟩
    exact ⟨r - y0, by omega, hr, hc, by omega, hx, hx', hbit⟩

/-- The rows of a sprite whose bytes can be read invert the cells that it covers, once each. -/
theorem drawRows_inverts (s : State) (i : Addr) (x0 y0 : Nat) (bytes : Nat → Byte) (d : Drawing) (n : Nat)
    (hb : ∀ k < n, readMem s (ea i k) = .ok (bytes k)) :
    ∃ e, drawRows s i x0 y0 n d = .ok e ∧ Inverts d e (SpriteCovers bytes x0 y0 n) := by
  obtain ⟨e, he, hinv⟩ := drawRows_ok s i x0 y0 bytes d n hb
  simp only [rowCovers_iff_spriteCovers] at hinv
  exact ⟨e, he, hinv⟩

/-- A sprite with rows stands at I; one without needs no base (log 13). -/
theorem spriteBase_of_readI {s : State} {n : Nibble} {i : Addr} (hi : n ≠ 0 → readI s = .ok i) :
    ∃ base, spriteBase s n.toNat = .ok base ∧ (n ≠ 0 → base = i) := by
  by_cases hn : n = 0
  · subst hn
    exact ⟨s.i, rfl, fun h => absurd rfl h⟩
  · have hn' : n.toNat ≠ 0 := fun e => hn (BitVec.eq_of_toNat_eq e)
    exact ⟨i, (if_neg hn').trans (hi hn), fun _ => rfl⟩

theorem exec_drw_of_reads {s : State} {x y n : Nibble} {x0 y0 : Byte} {i : Addr} {d : Drawing}
    (hx : readV s x = .ok x0) (hy : readV s y = .ok y0) (hi : spriteBase s n.toNat = .ok i)
    (hd : drawRows s i x0.toNat y0.toNat n.toNat ⟨s.fb, false, false⟩ = .ok d) :
    exec (.drw x y n) s = .next (finishDraw s d) := by
  rw [exec, execDrw, hx, readThen_ok, hy, readThen_ok, hi, readThen_ok, hd, readThen_ok]

theorem keepsRegs_finishDraw (s : State) (d : Drawing) : KeepsRegs s (finishDraw s d) (fun r => r = vf) := by
  intro r hr
  rw [vAt_finishDraw, vIsWritten_finishDraw, if_neg hr]
  simp [show r ≠ vf from hr]

/-- Settles O35: the drawing that the rows answer, written back to the framebuffer, VF and DIRTY. -/
theorem drawInvertsCoveredCells : Obligations.DrawInvertsCoveredCells := by
  refine fun s x y n x0 y0 i bytes => ⟨decodeWord_of_encode_eq (RowMatch.drw x y n) rfl, fun hx hy hi hb => ?_⟩
  obtain ⟨base, hbase, hbase'⟩ := spriteBase_of_readI hi
  have hrows : ∀ k < n.toNat, readMem s (ea base k) = .ok (bytes k) := fun k hk => by
    have hn : n ≠ 0 := by rintro rfl; exact absurd hk (Nat.not_lt_zero k)
    rw [hbase' hn]
    exact hb k hk
  obtain ⟨d, hd, hin, hout, hcoll, hchanged⟩ := drawRows_inverts s base x0.toNat y0.toNat bytes ⟨s.fb, false, false⟩
    n.toNat hrows
  simp only [Bool.false_eq_true, false_or] at hcoll hchanged
  refine ⟨finishDraw s d, exec_drw_of_reads hx hy hbase hd, hin, hout, fun h => ?_, fun h => ?_, ?_, ?_,
    finishDraw_frame s d, keepsRegs_finishDraw s d, fun _ _ => rfl⟩
  · exact (vAt_finishDraw s d vf).trans (by rw [if_pos rfl, if_pos (hcoll.mpr h)])
  · exact (vAt_finishDraw s d vf).trans (by rw [if_pos rfl, if_neg (h ∘ hcoll.mp)])
  · exact vIsWritten_finishDraw s d vf
  · rw [← hchanged]
    exact Bool.or_eq_true_iff

/-! ### Two draws of the same sprite (95_test_vectors.md L1.5) -/

/-- A loop that ends without a stop has run each of its rounds. -/
theorem forUpTo_round_ok {σ : Type} {body : Nat → σ → Except Fault σ} {s t : σ} : ∀ {n : Nat},
    forUpTo n body s = .ok t → ∀ k < n, ∃ u v, body k u = .ok v
  | 0, _, k, hk => absurd hk (Nat.not_lt_zero k)
  | n + 1, h, k, hk => by
    simp only [forUpTo] at h
    split at h
    · next u hu =>
      rcases Nat.lt_succ_iff_lt_or_eq.mp hk with hlt | rfl
      · exact forUpTo_round_ok hu k hlt
      · exact ⟨u, t, h⟩
    · cases h

/-- A draw that completes has read its coordinates, I where it has rows, and the byte of each row. -/
theorem reads_of_exec_drw {s t : State} {x y n : Nibble} (h : exec (.drw x y n) s = .next t) :
    ∃ (x0 y0 : Byte) (i : Addr) (bytes : Nat → Byte), readV s x = .ok x0 ∧ readV s y = .ok y0 ∧
      (n ≠ 0 → readI s = .ok i) ∧ ∀ k < n.toNat, readMem s (ea i k) = .ok (bytes k) := by
  obtain ⟨x0, hx, h⟩ := readThen_next h
  obtain ⟨y0, hy, h⟩ := readThen_next h
  obtain ⟨i, hi, h⟩ := readThen_next h
  obtain ⟨d, hd, -⟩ := readThen_next h
  have hbyte : ∀ k < n.toNat, ∃ b, readMem s (ea i k) = .ok b := fun k hk => by
    obtain ⟨u, v, huv⟩ := forUpTo_round_ok hd k hk
    obtain ⟨b, hb, -⟩ := readMap_ok huv
    exact ⟨b, hb⟩
  choose! bytes hbytes using hbyte
  refine ⟨x0, y0, i, bytes, hx, hy, fun hn => ?_, hbytes⟩
  have hn' : n.toNat ≠ 0 := fun e => hn (BitVec.eq_of_toNat_eq e)
  rwa [spriteBase, if_neg hn'] at hi

/-- A draw keeps the other registers as operands. -/
theorem readV_of_keepsRegs {s t : State} {D : Nibble → Prop} {x : Nibble} (h : KeepsRegs s t D) (hc : t.cfg = s.cfg)
    (hx : ¬ D x) : readV t x = readV s x := by
  obtain ⟨hval, hwritten⟩ := h x hx
  simp only [readV, hval, hwritten, hc]

/-- Settles O36: both draws invert the same cells, which are those that differ between them. -/
theorem drawingTwiceRestoresTheFramebuffer : Obligations.DrawingTwiceRestoresTheFramebuffer := by
  intro s t u x y n hxF hyF hst htu
  obtain ⟨x0, y0, i, bytes, hx, hy, hi, hb⟩ := reads_of_exec_drw hst
  obtain ⟨-, hdraw⟩ := drawInvertsCoveredCells s x y n x0 y0 i bytes
  obtain ⟨t', ht', hin, hout, -, -, -, -, hframe, hregs, -⟩ := hdraw hx hy hi hb
  cases ht'.symm.trans hst
  have hcfg : t.cfg = s.cfg := exec_cfg hst
  have hreads : readV t x = .ok x0 ∧ readV t y = .ok y0 :=
    ⟨(readV_of_keepsRegs hregs hcfg hxF).trans hx, (readV_of_keepsRegs hregs hcfg hyF).trans hy⟩
  have hi' : n ≠ 0 → readI t = .ok i := by rw [hframe]; exact hi
  have hb' : ∀ k < n.toNat, readMem t (ea i k) = .ok (bytes k) := by rw [hframe]; exact hb
  obtain ⟨-, hdraw'⟩ := drawInvertsCoveredCells t x y n x0 y0 i bytes
  obtain ⟨u', hu', hin', hout', hset, hclear, -⟩ := hdraw' hreads.1 hreads.2 hi' hb'
  cases hu'.symm.trans htu
  -- A cell that is 1 between the draws and was 0 before them is a covered cell that the second draw finds set.
  have hcell : (∃ r c, SpriteCovers bytes x0.toNat y0.toNat n.toNat r c ∧ fbCell t.fb r c = true) ↔
      ∃ r c, fbCell t.fb r c = true ∧ fbCell s.fb r c = false := by
    refine exists_congr fun r => exists_congr fun c => ⟨fun ⟨hcov, ht⟩ => ⟨ht, ?_⟩, fun ⟨ht, hs⟩ => ⟨?_, ht⟩⟩
    · rw [hin r c hcov] at ht
      simpa using ht
    · by_contra hcov
      exact nomatch ht.symm.trans ((hout r c hcov).trans hs)
  refine ⟨framebuffer_ext fun r _ c _ => ?_, ?_⟩
  · by_cases hcov : SpriteCovers bytes x0.toNat y0.toNat n.toNat r c
    · rw [hin' r c hcov, hin r c hcov, Bool.not_not]
    · rw [hout' r c hcov, hout r c hcov]
  · rw [← hcell]
    refine ⟨fun hone => ?_, hset⟩
    by_contra hnone
    exact absurd (hone.symm.trans (hclear hnone)) (by decide)

end Sys2Proof.Machine
end

section
/-! PROOFS. The tick of a pulse (spec/40_cycle_driver.md R122 to R129): the decoded instruction, the trace port, and
DIRTY with the render (spec/45_display.md R307). -/

namespace Sys2Proof.Machine

/-! ### The decoded instruction (R122, R123) -/

/-- Two bytes that decode to an instruction with nothing after it are its word. -/
theorem decodeWord_of_decodeBytes {hi lo : Byte} {i : Instr} (h : decodeBytes [hi, lo] = .ok (i, [])) :
    decodeWord (wordOf hi lo) = some i := by
  simp only [decodeBytes] at h
  split at h
  · next hd => cases h; exact hd
  · cases h

theorem runWord_of_decodeWord {s : State} {i : Instr} (st0 : Byte) (h : decodeWord s.curWord = some i) :
    runWord st0 s = finishTick st0 (exec i s) := by
  simp only [runWord, h]

/-- Settles O37: the word of the two bytes is the one the fetch answers. -/
theorem stepRunsTheDecodedInstruction : Obligations.StepRunsTheDecodedInstruction := by
  intro s keys rnd clr hi lo i he hr hb hhi hlo hdec
  have hd : decodeWord (atExecute s keys rnd (hi ++ lo)).curWord = some i := decodeWord_of_decodeBytes hdec
  rw [step_of_running_pulse he hr hb (fetchWord_of_readMem hhi hlo)]
  change renderAfter clr (runWord s.st (atExecute s keys rnd (hi ++ lo))) = _
  rw [runWord_of_decodeWord s.st hd]
  cases exec i (atExecute s keys rnd (hi ++ lo)) <;> rfl

/-! ### The trace port (R129) -/

/-- The execution of a word leaves the trace port as the fetch has set it, and TRACE decides that. -/
theorem runWord_traceOut {st0 : Byte} {s t : State} (h : runWord st0 s = .next t) : t.traceOut = s.traceOut := by
  rcases runWord_next h with ⟨-, rfl⟩ | ⟨i, u, -, hu, ht⟩
  · rfl
  · obtain ⟨-, -, -, -, htrace, -⟩ := effect_control (exec_effect hu)
    rcases ht with ⟨-, rfl⟩ | ⟨-, rfl⟩ <;> exact htrace

/-- A running tick presents its word where TRACE is set; a fetch out of bounds has none (log 21). -/
theorem runningTick_traceOut {s t : State} (h : runningTick s = .next t) :
    (fetchOutOfBounds s = true ∧ t.traceOut = s.traceOut) ∨
      (fetchOutOfBounds s = false ∧
        ∃ w, fetchWord s = .ok w ∧ t.traceOut = if s.trace then some (s.pc, w) else none) := by
  rcases runningTick_next h with ⟨hout, rfl⟩ | ⟨hin, w, hw, h⟩
  · exact .inl ⟨hout, rfl⟩
  · exact .inr ⟨hin, w, hw, runWord_traceOut h⟩

/-- Without TRACE the tick of a state that presents nothing presents nothing. -/
theorem underlyingTick_traceOut_of_not_trace {keys : BitVec 16} {rnd : Byte} {s t : State} (hnone : s.traceOut = none)
    (htrace : s.trace = false) (h : underlyingTick keys rnd s = .next t) : t.traceOut = none := by
  rcases underlyingTick_next h with ⟨-, rfl⟩ | ⟨-, h⟩
  · rw [waitingTick_frame]
    exact hnone
  · rcases runningTick_traceOut h with ⟨-, e⟩ | ⟨-, w, -, e⟩
    · exact e.trans hnone
    · rw [e, latchInputs_trace, htrace]
      rfl

/-- Settles O38: the running tick, the waiting tick, and every part of a pulse without TRACE. -/
theorem tracePresentsTheExecutedWord : Obligations.TracePresentsTheExecutedWord := by
  intro s t keys rnd clr he h
  rw [step_of_pulse he] at h
  obtain ⟨u, hu, rfl⟩ := renderAfter_next h
  refine ⟨fun hr hb htrace => ?_, fun hr => ?_, fun htrace => ?_⟩
  · have hr' : runState (beginEvent s) = .running := hr
    obtain ⟨-, -, hwait⟩ := (runState_eq_running_iff s).mp hr
    rw [pulseTick_of_ticking (by simp [hr']) (by simp [hr'])] at hu
    rcases underlyingTick_next hu with ⟨hwait', -⟩ | ⟨-, hu⟩
    · exact nomatch hwait.symm.trans hwait'
    · rcases runningTick_traceOut hu with ⟨hout, -⟩ | ⟨-, w, hw, e⟩
      · exact nomatch ((fetchOutOfBounds_eq_false_iff s).mpr hb).symm.trans hout
      · exact ⟨w, hw, e.trans (if_pos htrace)⟩
  · rw [pulseTick_of_awaitingKey (s := beginEvent s) hr] at hu
    cases hu
    rw [renderThenClear_traceOut, waitingTick_frame]
    rfl
  · rcases pulseTick_next hu with rfl | ⟨-, -, rfl | hu⟩
    · rfl
    · rfl
    · have hnone : u.traceOut = none := underlyingTick_traceOut_of_not_trace (s := beginEvent s) rfl htrace hu
      exact hnone

/-! ### What a tick keeps -/

/-- `P` holds after a tick of a state that meets it, where the parts of a tick keep it. -/
theorem underlyingTick_keeps {P : State → Prop} (latch : ∀ s k r, P s → P (latchInputs k r s))
    (word : ∀ s w, P s → P (beginWord w s)) (fetchFault : ∀ s, P s → P (raiseFetchFault s))
    (decodeFault : ∀ s, P s → P (raiseFault .decodeFault s)) (run : ∀ i s t, P s → exec i s = .next t → P t)
    (timers : ∀ s st0, P s → P (timerStep st0 s)) (wait : ∀ s k, P s → P (waitingTick k s)) {keys : BitVec 16}
    {rnd : Byte} {s t : State} (hs : P s) (h : underlyingTick keys rnd s = .next t) : P t := by
  rcases underlyingTick_next h with ⟨-, rfl⟩ | ⟨-, h⟩
  · exact wait s keys hs
  · have hl := latch s keys rnd hs
    rcases runningTick_next h with ⟨-, rfl⟩ | ⟨-, w, -, h⟩
    · exact fetchFault _ hl
    · have hw := word _ w hl
      rcases runWord_next h with ⟨-, rfl⟩ | ⟨i, u, -, hu, ⟨-, rfl⟩ | ⟨-, rfl⟩⟩
      · exact decodeFault _ hw
      · exact run i _ _ hw hu
      · exact timers u _ (run i _ u hw hu)

/-! ### DIRTY (R32, R307) -/

/-- CLS and a draw that changes a cell set DIRTY; no instruction clears it. -/
theorem dirty_of_effect {s t : State} {op : Op} (h : Effect s op t) (hs : s.dirty = true) : t.dirty = true := by
  cases h with
  | clears => rfl
  | draws d => exact Bool.or_eq_true_iff.mpr (.inl hs)
  | regs _ x out => rw [writeBack_frame]; exact hs
  | stores i x hu => rw [advanceI_frame, storeRegs_frame hu]; exact hs
  | loads i x hu => rw [advanceI_frame, loadRegs_frame hu]; exact hs
  | jumps | faults | pushes | pops | index | digits | delay | sound | waits => exact hs

theorem dirty_of_underlyingTick {keys : BitVec 16} {rnd : Byte} {s t : State} (hs : s.dirty = true)
    (h : underlyingTick keys rnd s = .next t) : t.dirty = true :=
  underlyingTick_keeps (P := fun u => u.dirty = true) (latch := fun _ _ _ hp => hp) (word := fun _ _ hp => hp)
    (fetchFault := fun _ hp => hp) (decodeFault := fun _ hp => hp)
    (run := fun _ _ _ hp he => dirty_of_effect (exec_effect he) hp) (timers := fun _ _ hp => hp)
    (wait := fun _ _ hp => by rw [waitingTick_frame]; exact hp) hs h

theorem dirty_of_pulseTick {keys : BitVec 16} {rnd : Byte} {brk : Bool} {s t : State} (hs : s.dirty = true)
    (h : pulseTick keys rnd brk s = .next t) : t.dirty = true := by
  rcases pulseTick_next h with rfl | ⟨-, -, rfl | h⟩
  · exact hs
  · exact hs
  · exact dirty_of_underlyingTick hs h

/-- A debugger command clears no DIRTY: its step is a tick without a render (log 24). -/
theorem dirty_of_takeEvent {e : Event} {s t : State} (hp : ∀ keys rnd brk clr, e ≠ .pulse keys rnd brk clr)
    (hs : s.dirty = true) (h : takeEvent e s = .next t) : t.dirty = true := by
  cases e with
  | pulse keys rnd brk clr => exact absurd rfl (hp keys rnd brk clr)
  | resume =>
    cases h
    rcases resume_cases s with e | ⟨-, -, e⟩ <;> rw [e] <;> exact hs
  | enableTrace =>
    cases h
    rcases enableTrace_cases s with e | ⟨-, -, e⟩ <;> rw [e] <;> exact hs
  | singleStep keys rnd =>
    rcases takeSingleStep_next h with rfl | ⟨-, -, h⟩
    · exact hs
    · exact dirty_of_underlyingTick hs h
  | memdump | printRegisters => cases h; exact hs

/-- The render reads DIRTY, and then `dirty_clr` clears it (R307). -/
theorem renderThenClear_eq (s : State) (clr : Bool) : renderThenClear clr s =
    { s with renderDirty := some s.dirty, dirty := if clr then false else s.dirty } := by
  cases clr <;> simp [renderThenClear]

/-- Settles O39: the render, the pulse around it, the instructions, and the events without a render. -/
theorem dirtyClearedOnlyByTheAdapter : Obligations.DirtyClearedOnlyByTheAdapter := by
  refine ⟨renderThenClear_eq, fun s t keys rnd brk clr he h => ⟨fun hhalt => ?_, fun hhalt => ?_⟩,
    fun _ _ _ h => dirty_of_effect (exec_effect h), fun s t h hs ht => ?_⟩
  · rw [step_of_pulse he, hhalt, Bool.not_false, Bool.and_true] at h
    exact renderAfter_next h
  · rw [step_of_stopped_pulse he (.inr ((runState_eq_halted_iff s).mpr hhalt)), hhalt, Bool.not_true, Bool.and_false,
      renderThenClear_false] at h
    cases h
    rfl
  · by_cases hp : ∃ keys rnd brk clr, nextEvent s = .pulse keys rnd brk clr
    · obtain ⟨keys, rnd, brk, clr, he⟩ := hp
      rw [step_of_pulse he] at h
      obtain ⟨u, hu, rfl⟩ := renderAfter_next h
      have hu' : u.dirty = true := dirty_of_pulseTick (s := beginEvent s) hs hu
      obtain ⟨rfl, hhalt⟩ : clr = true ∧ s.halt = false := by simpa [hu'] using ht
      exact ⟨keys, rnd, brk, he, hhalt⟩
    · have hp' : ∀ keys rnd brk clr, nextEvent s ≠ .pulse keys rnd brk clr :=
        fun keys rnd brk clr he => hp ⟨keys, rnd, brk, clr, he⟩
      exact nomatch ht.symm.trans (dirty_of_takeEvent (s := beginEvent s) hp' hs h)

/-! ### The render after CLS (95_test_vectors.md L1.3) -/

/-- Where the instruction does not halt the core the tick ends with the timer step (R124). -/
theorem runWord_of_completing {s t : State} {i : Instr} (st0 : Byte) (hd : decodeWord s.curWord = some i)
    (he : exec i s = .next t) (ht : t.halt = false) : runWord st0 s = .next (timerStep st0 t) := by
  rw [runWord_of_decodeWord st0 hd, he, finishTick, ht]
  rfl

/-- The tick of an instruction that does not draw leaves the framebuffer and DIRTY to the render. -/
theorem runWord_display {st0 : Byte} {s t : State} {i : Instr} (hd : decodeWord s.curWord = some i)
    (hop : i.op ∉ [Op.cls, .drw]) (h : runWord st0 s = .next t) : t.fb = s.fb ∧ t.dirty = s.dirty := by
  rcases runWord_next h with ⟨hnone, -⟩ | ⟨j, u, hj, hu, ht⟩
  · exact nomatch hnone.symm.trans hd
  · cases hj.symm.trans hd
    have hdisplay := effect_display (exec_effect hu) hop
    rcases ht with ⟨-, rfl⟩ | ⟨-, rfl⟩ <;> exact hdisplay

/-- The render of a pulse whose instruction does not draw reads the framebuffer and DIRTY as the pulse found them. -/
theorem portRender_of_running_pulse {s t : State} {keys : BitVec 16} {rnd : Byte} {clr : Bool} {w : Word} {i : Instr}
    (he : nextEvent s = .pulse keys rnd false clr) (hr : runState s = .running) (hb : FetchInBounds s)
    (hw : fetchWord s = .ok w) (hd : decodeWord w = some i) (hop : i.op ∉ [Op.cls, .drw]) (h : step s = .next t) :
    portRender t = some (s.fb, s.dirty) := by
  rw [step_of_running_pulse he hr hb hw] at h
  obtain ⟨u, hu, rfl⟩ := renderAfter_next h
  obtain ⟨hfb, hdirty⟩ := runWord_display (s := atExecute s keys rnd w) hd hop hu
  rw [portRender, renderThenClear_renderDirty, Option.map_some, renderThenClear_fb, hfb, hdirty]
  rfl

/-- Settles O40: the clear and its render in one pulse, and DIRTY as the next pulse finds it. -/
theorem renderAfterClsSeesDirtyOnce : Obligations.RenderAfterClsSeesDirtyOnce := by
  intro s keys rnd w h he hr hb hw hd
  obtain ⟨hhalt, hsusp, hwait⟩ := (runState_eq_running_iff s).mp hr
  have hstep : step s = .next (renderThenClear true (timerStep s.st
      { atExecute s keys rnd w with fb := Vector.replicate 32 0, dirty := true })) := by
    rw [step_of_running_pulse he hr hb hw,
      runWord_of_completing (s := atExecute s keys rnd w) s.st hd (exec_cls _ h) hhalt, renderAfter]
  refine ⟨_, hstep, fun r c => fbCell_replicate_zero r c, rfl, rfl, ?_⟩
  intro u keys' rnd' clr w' i he' hb' hw' hd' hop hu
  exact portRender_of_running_pulse he' ((runState_eq_running_iff _).mpr ⟨hhalt, hsusp, hwait⟩) hb' hw' hd' hop hu

end Sys2Proof.Machine
end

section
/-! PROOFS. The suspended core (spec/60_exceptions.md R340, R346, spec/40_cycle_driver.md R126): the pulse that runs no
tick, the debugger's `step` that runs one, and the commands that run none. -/

namespace Sys2Proof.Machine

/-- Settles O48: a suspended core is not halted, so its pulse is the render with its `dirty_clr`. -/
theorem suspendedRunsNoTick : Obligations.SuspendedRunsNoTick := by
  intro s keys rnd brk clr he hr
  obtain ⟨hhalt, -⟩ := (runState_eq_suspended_iff s).mp hr
  rw [step_of_stopped_pulse he (.inl hr), hhalt, Bool.not_false, Bool.and_true]
  rfl

/-! ### The debugger's `step` (R346) -/

section SingleStep

variable {s : State} {keys : BitVec 16} {rnd : Byte}

theorem step_of_singleStep (he : nextEvent s = .singleStep keys rnd) :
    step s = takeSingleStep keys rnd (beginEvent s) := by
  rw [step, he, takeEvent]

theorem step_of_singleStep_suspended (he : nextEvent s = .singleStep keys rnd) (hr : runState s = .suspended) :
    step s = underlyingTick keys rnd (afterEvent s) := by
  have hr' : runState (beginEvent s) = .suspended := hr
  rw [step_of_singleStep he, takeSingleStep, hr']
  rfl

theorem underlyingTick_of_waitK (hw : s.waitK = true) : underlyingTick keys rnd s = .next (waitingTick keys s) :=
  if_pos hw

/-- The tick of an underlying Running state is the word that the fetch answers, executed. -/
theorem underlyingTick_of_fetchWord {w : Word} (hwait : s.waitK = false) (hb : FetchInBounds s)
    (hw : fetchWord s = .ok w) :
    underlyingTick keys rnd s = runWord s.st (beginWord w (latchInputs keys rnd s)) := by
  rw [underlyingTick, hwait]
  exact runningTick_of_fetchWord (s := latchInputs keys rnd s) hb hw

/-- No tick clears SUSP. -/
theorem susp_of_underlyingTick {t : State} (hs : s.susp = true) (h : underlyingTick keys rnd s = .next t) :
    t.susp = true := by
  refine underlyingTick_keeps (P := fun u => u.susp = true) (latch := fun _ _ _ hp => hp) (word := fun _ _ hp => hp)
    (fetchFault := fun _ hp => by simp [hp]) (decodeFault := fun _ hp => by simp [hp]) (run := fun _ _ _ hp he => ?_)
    (timers := fun _ _ hp => hp) (wait := fun _ _ hp => by rw [waitingTick_frame]; exact hp) hs h
  obtain ⟨hsusp, -⟩ := effect_control (exec_effect he)
  exact hsusp.trans hp

end SingleStep

/-- Settles O46: the tick of the underlying state, an instruction's or a waiting one, under SUSP. -/
theorem singleStepRunsOneTick : Obligations.SingleStepRunsOneTick := by
  intro s keys rnd he
  refine ⟨step_of_singleStep_suspended he, fun hr hwait hb w i hw hd t ht => ?_, fun hr hwait hnone => ?_,
    fun hr hwait k hk hdown hlow => ?_, fun hr t h => ?_, fun hr => ?_⟩
  · have hd' : decodeWord (atExecute s keys rnd w).curWord = some i := hd
    calc step s
      _ = underlyingTick keys rnd (afterEvent s) := step_of_singleStep_suspended he hr
      _ = runWord s.st (atExecute s keys rnd w) := underlyingTick_of_fetchWord (s := afterEvent s) hwait hb hw
      _ = .next (if t.halt then t else timerStep s.st t) := by rw [runWord_of_decodeWord s.st hd', ht, finishTick]
  · rw [step_of_singleStep_suspended he hr, underlyingTick_of_waitK (s := afterEvent s) hwait, waitingTick,
      captureKey_of_no_key (hnone ▸ lowestKey_zero)]
    rfl
  · have hkey : lowestKey { afterEvent s with key := keys }.key = some k := lowestKey_eq_some hdown hlow
    refine ⟨captureKey { afterEvent s with key := keys }, ?_, ?_⟩
    · rw [step_of_singleStep_suspended he hr, underlyingTick_of_waitK (s := afterEvent s) hwait]
      rfl
    · rw [captureKey_of_key hkey]
      exact ⟨rfl, writesReg_setV_keyCode { afterEvent s with key := keys, waitK := false } s.waitX hk⟩
  · obtain ⟨-, hsusp⟩ := (runState_eq_suspended_iff s).mp hr
    rw [step_of_singleStep_suspended he hr] at h
    exact susp_of_underlyingTick (s := afterEvent s) hsusp h
  · rw [step, he]
    exact takeEvent_of_halted (s := beginEvent s) hr nofun

/-! ### The other commands (R37, R126, R352) -/

section Commands

variable {s : State}

theorem resume_of_not_suspended (h : runState s ≠ .suspended) : resume s = s := by
  cases hr : runState s with
  | suspended => exact absurd hr h
  | running | awaitingKey | halted => rw [resume, hr]

theorem enableTrace_of_suspended (h : runState s = .suspended) : enableTrace s = { s with trace := true } := by
  rw [enableTrace, h]

theorem enableTrace_of_not_suspended (h : runState s ≠ .suspended) : enableTrace s = s := by
  cases hr : runState s with
  | suspended => exact absurd hr h
  | running | awaitingKey | halted => rw [enableTrace, hr]

theorem takeSingleStep_of_not_suspended {keys : BitVec 16} {rnd : Byte} (h : runState s ≠ .suspended) :
    takeSingleStep keys rnd s = .next s := by
  cases hr : runState s with
  | suspended => exact absurd hr h
  | running | awaitingKey | halted => rw [takeSingleStep, hr]

theorem step_of_enableTrace (he : nextEvent s = .enableTrace) : step s = .next (enableTrace (beginEvent s)) := by
  rw [step, he, takeEvent]

end Commands

/-- Settles O49: `enable-trace` while Suspended, the commands that only read, and the commands outside Suspended. -/
theorem debuggerCommandsActOnlyWhileSuspended : Obligations.DebuggerCommandsActOnlyWhileSuspended := by
  refine fun s => ⟨fun he hr => ?_, fun he => ?_, fun he hr => ?_⟩
  · rw [step_of_enableTrace he, enableTrace_of_suspended (s := beginEvent s) hr]
    rfl
  · rcases he with he | he <;> rw [step, he] <;> rfl
  · have hr' : runState (beginEvent s) ≠ .suspended := hr
    rcases he with he | he | ⟨keys, rnd, he⟩
    · rw [step_of_resume he, resume_of_not_suspended hr']
      rfl
    · rw [step_of_enableTrace he, enableTrace_of_not_suspended hr']
      rfl
    · rw [step_of_singleStep he, takeSingleStep_of_not_suspended hr']
      rfl

end Sys2Proof.Machine
end

section
/-! PROOFS. Reset and launch (spec/10_state.md R40, spec/70_reset_and_hazards.md R370, R371). -/

namespace Sys2Proof.Machine

/-! ### The state that reset leaves (R40) -/

/-- Every register is written at reset, with 0 (log 2). -/
theorem vIsWritten_resetWith (cfg : Config) (x : Nibble) : vIsWritten (resetWith cfg) x = true := by
  have hbits : ∀ x : Nibble, (0xFFFF : BitVec 16).getLsbD x.toNat = true := by decide
  exact hbits x

theorem vAt_resetWith (cfg : Config) (x : Nibble) : vAt (resetWith cfg) x = 0 :=
  Vector.getElem_replicate ..

theorem readV_resetWith (cfg : Config) (x : Nibble) : readV (resetWith cfg) x = .ok 0 := by
  rw [readV_of_written (vIsWritten_resetWith cfg x), vAt_resetWith]

/-- Settles O50: the reset table, field by field, and the cells through their reads. -/
theorem resetLeavesTheStatedValues : Obligations.ResetLeavesTheStatedValues :=
  ⟨rfl, rfl, rfl, rfl, fun r c => fbCell_replicate_zero r c, rfl, rfl, rfl, rfl, rfl, rfl, rfl, rfl, rfl, rfl,
    byteAt_resetWith defaultConfig, readV_resetWith defaultConfig, rfl⟩

/-! ### The launch (R370, R371) -/

theorem romWellFormed_iff (rom : List Byte) : romWellFormed rom = true ↔ rom.length ≤ 0xE00 :=
  decide_eq_true_iff

theorem launch_of_legal {rom : List Byte} (cfg : Config) (h : rom.length ≤ 0xE00) :
    launch cfg rom = loadRom rom rom.length (resetWith cfg) :=
  if_pos ((romWellFormed_iff rom).mpr h)

theorem launch_of_tooLarge {rom : List Byte} (cfg : Config) (h : 0xE00 < rom.length) :
    launch cfg rom = raiseRomTooLarge (resetWith cfg) :=
  if_neg fun hw => absurd ((romWellFormed_iff rom).mp hw) (by omega)

/-- ROMTooLarge writes CAUSE and HALT, and nothing else (R335). -/
theorem raiseRomTooLarge_frame (s : State) : raiseRomTooLarge s = { s with cause := .romTooLarge, halt := true } := by
  simp [enterFault, Cause.fatal, Cause.recoverable]

theorem loadRom_wf {s : State} (rom : List Byte) (n : Nat) (h : Memory.wf s.cfg.font s.mem) :
    Memory.wf (loadRom rom n s).cfg.font (loadRom rom n s).mem :=
  repeatUpTo_keeps (P := fun u : State => Memory.wf u.cfg.font u.mem) (fun _ _ hu => storeByte_wf hu _ _) n h

/-- What the invariants say of the state that reset leaves is kept by the load of a ROM and by its refusal. -/
theorem launch_invariants (cfg : Config) (rom : List Byte) :
    (launch cfg rom).Inv ∧ (launch cfg rom).CauseInv ∧ (launch cfg rom).RegsReadable := by
  have hreset : Memory.wf (resetWith cfg).cfg.font (resetWith cfg).mem := ⟨.nil, fun _ h => nomatch h⟩
  have hstack : (resetWith cfg).stack.length = cfg.stackDepth := List.length_replicate
  rcases Nat.lt_or_ge 0xE00 rom.length with hlarge | hlegal
  · rw [launch_of_tooLarge cfg hlarge, raiseRomTooLarge_frame]
    exact ⟨⟨hreset, hstack, Nat.zero_le _⟩, ⟨fun _ => rfl, fun hsusp => nomatch hsusp⟩,
      .inr ⟨vIsWritten_resetWith cfg, rfl⟩⟩
  · have hwf := loadRom_wf rom rom.length hreset
    rw [loadRom_frame] at hwf
    rw [launch_of_legal cfg hlegal, loadRom_frame]
    exact ⟨⟨hwf, hstack, Nat.zero_le _⟩, ⟨fun hhalt => (nomatch hhalt), fun hsusp => nomatch hsusp⟩,
      .inr ⟨vIsWritten_resetWith cfg, rfl⟩⟩

/-- Settles O52: the reset state is the launch of an empty ROM with the default parameters. -/
theorem resetMeetsTheInvariants : Obligations.ResetMeetsTheInvariants := by
  obtain ⟨hinv, hcause, hread⟩ := launch_invariants defaultConfig []
  exact ⟨hinv, hcause, hread, launch_invariants⟩

/-! ### The first steps after a launch -/

/-- After ROMTooLarge no step changes anything but the schedule and what a render presents (R349, R371). -/
theorem step_of_romTooLarge {cfg : Config} {s : State}
    (hs : s = { raiseRomTooLarge (resetWith cfg) with
                events := s.events, eventNo := s.eventNo, renderDirty := s.renderDirty }) :
    ∃ t, step s = .next t ∧ t = { raiseRomTooLarge (resetWith cfg) with
                                  events := t.events, eventNo := t.eventNo, renderDirty := t.renderDirty } := by
  obtain ⟨t, hstep, ht⟩ := haltedIsTerminal s (by rw [hs]; rfl)
  refine ⟨t, hstep, ?_⟩
  rw [hs] at ht
  rw [ht]
  rfl

theorem underlyingTick_of_fetch_error {keys : BitVec 16} {rnd : Byte} {s : State} {f : Fault} (hwait : s.waitK = false)
    (hb : FetchInBounds s) (hf : fetchWord s = .error f) : underlyingTick keys rnd s = .fault f := by
  have hb' : fetchOutOfBounds (latchInputs keys rnd s) = false := (fetchOutOfBounds_eq_false_iff s).mpr hb
  have hf' : fetchWord (latchInputs keys rnd s) = .error f := hf
  simp [underlyingTick, hwait, runningTick, hb', hf']

/-- The first event after reset (log 4). -/
theorem nextEvent_resetWith (cfg : Config) : nextEvent (resetWith cfg) =
    .pulse (Config.freeKeys 0) (Config.freeRnd 0) false (Config.freeDirtyClr 0) := rfl

theorem runState_resetWith (cfg : Config) : runState (resetWith cfg) = .running := rfl

theorem fetchInBounds_resetWith (cfg : Config) : FetchInBounds (resetWith cfg) :=
  fun ⟨_, hpc⟩ => absurd hpc (by decide : ¬ 0xFFE ≤ progBase.toNat)

/-- Past the font nothing is written at reset. -/
theorem byteAt_resetWith_of_past_font (cfg : Config) {a : Addr} (h : 80 ≤ a.toNat) :
    byteAt (resetWith cfg) a = none := by
  rw [byteAt_resetWith, dif_neg (by omega)]

theorem fetchWord_resetWith_of_fault {cfg : Config} (h : cfg.unwritten = .fault) :
    fetchWord (resetWith cfg) = .error (.unwrittenRead (.mem 0x200)) := by
  have hfirst : readMem (resetWith cfg) progBase = .error (.unwrittenRead (.mem 0x200)) :=
    (readMem_of_unwritten (byteAt_resetWith_of_past_font cfg (by decide))).trans
      (if_neg fun hzero => nomatch hzero.symm.trans h)
  have hpc : (resetWith cfg).pc = progBase := rfl
  rw [fetchWord, hpc, hfirst]

theorem fetchWord_resetWith_of_zero {cfg : Config} (h : cfg.unwritten = .zero) :
    fetchWord (resetWith cfg) = .ok (wordOf 0 0) := by
  have hread : ∀ a : Addr, 80 ≤ a.toNat → readMem (resetWith cfg) a = .ok 0 := fun a ha => by
    rw [readMem_of_unwritten (byteAt_resetWith_of_past_font cfg ha)]
    exact if_pos h
  exact fetchWord_of_readMem (hread progBase (by decide)) (hread (progBase + 1) (by decide))

/-- The first step after an empty ROM under `UNWRITTEN = fault`: the fetch stops. -/
theorem step_resetWith_of_fault {cfg : Config} (h : cfg.unwritten = .fault) :
    step (resetWith cfg) = .fault (.unwrittenRead (.mem 0x200)) := by
  have hr := runState_resetWith cfg
  have hf : fetchWord (beginEvent (resetWith cfg)) = .error (.unwrittenRead (.mem 0x200)) :=
    fetchWord_resetWith_of_fault h
  rw [step_of_ticking_pulse (nextEvent_resetWith cfg) (by simp [hr]) (by simp [hr]),
    underlyingTick_of_fetch_error (s := beginEvent (resetWith cfg)) rfl (fetchInBounds_resetWith cfg) hf, renderAfter]

/-- The first step after an empty ROM under `UNWRITTEN = zero`: the word 0x0000 is illegal. -/
theorem step_resetWith_of_zero {cfg : Config} (h : cfg.unwritten = .zero) :
    ∃ t, step (resetWith cfg) = .next t ∧ t.cause = .decodeFault ∧ t.susp = true ∧ t.pc = 0x202 := by
  have hillegal : decodeWord (wordOf 0 0) = none := by decide
  obtain ⟨-, hpulse⟩ := illegalWordSuspends
  exact ⟨_, hpulse _ _ _ _ _ (nextEvent_resetWith cfg) (runState_resetWith cfg)
    (fetchInBounds_resetWith cfg) (fetchWord_resetWith_of_zero h) hillegal, rfl, rfl, rfl⟩

/-- Settles O51: a legal ROM over the reset memory, a ROM that is too large, and the empty ROM. -/
theorem launchLoadsTheRom : Obligations.LaunchLoadsTheRom := by
  refine fun cfg rom => ⟨fun hlegal => ?_, fun hlarge => ?_, fun hempty => ?_⟩
  · rw [launch_of_legal cfg hlegal]
    have hframe := loadRom_frame rom rom.length (resetWith cfg)
    refine ⟨hframe, ?_, ?_, fun a => ?_⟩
    · rw [hframe]; rfl
    · rw [hframe]; rfl
    · rw [byteAt_loadRom rom hlegal _ rom.length (Nat.le_refl _), byteAt_resetWith]
  · rw [launch_of_tooLarge cfg hlarge]
    exact ⟨raiseRomTooLarge_frame _, fun a ha => byteAt_resetWith_of_past_font cfg ha, fun s => step_of_romTooLarge⟩
  · subst hempty
    rw [launch_of_legal cfg (Nat.zero_le _)]
    exact ⟨step_resetWith_of_fault, step_resetWith_of_zero⟩

end Sys2Proof.Machine
end
